-- ==== Sys2Proof/Word.lean ====
section
/-! DEFINITION. The block's data types: bytes, tokens, the 32-bit word and its fields (00_scope.md R6, R10, R11,
R13), and the closed name sets of the spec (mnemonics R21, formats R61, error names R14). -/

namespace Sys2Proof

/-- One byte of text (R13). -/
abbrev Byte := BitVec 8

/-- The 32-bit instruction word (R6 WORD_WIDTH, R60). -/
abbrev Word := BitVec 32

/-- The 6-bit opcode field (R6 OPCODE_WIDTH). -/
abbrev Opcode := BitVec 6

/-- A 5-bit register index (R6 REG_INDEX_WIDTH, R25). -/
abbrev RegIndex := BitVec 5

/-- The 16-bit immediate field (R6 IMM_WIDTH). -/
abbrev Imm16 := BitVec 16

/-- A token: a run of non-WS bytes (R13). -/
abbrev Token := List Byte

/-- One line of text, its terminator already removed (R13, R29). -/
abbrev Line := List Byte

/-- The ASCII bytes of some characters (R13, 93_implementation_defined.md G2). -/
def ascii (cs : List Char) : List Byte := cs.map fun c => BitVec.ofNat 8 c.toNat

/-- The four instruction formats (R61). The 2-bit tag code of R24 is unobservable; the names are kept distinct. -/
inductive Format where
  | rType
  | iType
  | jrType
  | haltType
deriving DecidableEq, Repr

/-- The internal 2-bit format tag (R24). -/
def Format.tag : Format → BitVec 2
  | .rType => 0b00#2
  | .iType => 0b01#2
  | .jrType => 0b10#2
  | .haltType => 0b11#2

/-- The 18 mnemonics of the fixed instruction set (R2, R21). -/
inductive Mnemonic where
  | add | addi | sub | subi | mul | muli | or | ori | and | andi | xor | xori
  | ldw | stw | bz | beq | jr | halt
deriving DecidableEq, Repr

/-- The typed failures of `encode` (R14, R170). `internalInvariantViolation` belongs to the type and is never
raised (R109, R174). -/
inductive EncodeError where
  | unknownOpcode
  | malformedOperands
  | invalidRegister
  | internalInvariantViolation
deriving DecidableEq, Repr

/-- One entry of the OpcodeTable ROM: key, 6-bit opcode, format tag (R21, R23). -/
structure RomEntry where
  mnemonic : Mnemonic
  opcode : Opcode
  format : Format
deriving DecidableEq, Repr

/-- The nets the field router drives (R30, R107): zero where the format has no such field. -/
structure Fields where
  rs : RegIndex
  rt : RegIndex
  rd : RegIndex
  imm16 : Imm16
deriving DecidableEq, Repr

/-- Why the test decoder of words (R115) gives no instruction: an unassigned opcode (R71), or a bit the format
marks unused that is not 0 (R66). Neither is a result of the block, which has no decoder (R5). -/
inductive WordError where
  | unassignedOpcode
  | unusedBitsSet
deriving DecidableEq, Repr

end Sys2Proof
end

