-- ==== Sys2Proof/Config.lean ====
section
/-! DEFINITION. The block's build-time parameters (00_scope.md R7, R9; 10_state.md R28) and their defaults. -/

namespace Sys2Proof

/-- The parameters a block is built with. They are no registers (R28): nothing at run time reads them from State or
changes them. -/
structure Params where
  /-- REG_MARKERS: the bytes accepted as the first byte of a register token (R7, R76, U10). -/
  regMarkers : List Byte
  /-- MAX_LINE_BYTES: the bound on the line's length, OPEN; `none` is no bound (R9, D23, U11). -/
  maxLineBytes : Option Nat
deriving DecidableEq, Repr

/-- The default of REG_MARKERS, the single character `R` (R7, D9). DESIGN CHOICE (log entry 7): `exec` and `step` are
built with it; `execWith` and `stepWith` take any set. Unsafe only where a claim about `exec` or `step` is read as one
about a realisation built with another set. -/
def Config.regMarkers : List Byte := ascii ['R']

/-- MAX_LINE_BYTES of `step`: "the model takes the line to be unbounded" (R9, D23). Log entry 8; `stepWith` takes any
bound. Unsafe for a realisation with a finite bound, on lines over it; safe on lines within it. -/
def Config.maxLineBytes : Option Nat := none

/-- The default build. -/
def Config.params : Params := { regMarkers := Config.regMarkers, maxLineBytes := Config.maxLineBytes }

/-- The marker in canonical spellings of the default build: `R` (log entry 16). -/
def Config.canonicalMarker : Byte := 0x52#8

end Sys2Proof
end

