-- ==== Sys2Proof/Machine/Text.lean ====
section
/-! DEFINITION. Bytes and digit strings: white space, digits, case folding, decimal value (00_scope.md R8, R13) and
the canonical decimal spelling the line encoder of Decode.lean writes. -/

namespace Sys2Proof

/-- WS, the bytes that separate tokens: HT, LF, VT, FF, CR, space (R8, D6). -/
def wsBytes : List Byte := [0x09#8, 0x0A#8, 0x0B#8, 0x0C#8, 0x0D#8, 0x20#8]

/-- The byte separates tokens (R8). -/
def isWs (b : Byte) : Bool := wsBytes.contains b

/-- `digit(c)` of R13: '0' to '9'. -/
def isDigit (b : Byte) : Bool := 0x30#8 ≤ b && b ≤ 0x39#8

/-- `upper(c)` of R13: 'a' to 'z' onto 'A' to 'Z', every other byte unchanged. -/
def upper (b : Byte) : Byte := if 0x61#8 ≤ b && b ≤ 0x7A#8 then b - 0x20#8 else b

/-- The value of a decimal digit byte. -/
def digitValue (b : Byte) : Nat := b.toNat - 0x30

/-- `dec(s)` of R13: the number a digit string denotes, leading zeros allowed, no length limit. -/
def dec (s : List Byte) : Nat := s.foldl (fun n b => 10 * n + digitValue b) 0

/-- The byte of a decimal digit. -/
def digitByte (n : Nat) : Byte := BitVec.ofNat 8 (0x30 + n)

/-- The decimal digits of `n`, most significant first, no leading zero; at most `k` of them. -/
def decimalUpTo : Nat → Nat → List Byte
  | 0, _ => []
  | k + 1, n => if n < 10 then [digitByte n] else decimalUpTo k (n / 10) ++ [digitByte (n % 10)]

/-- The canonical decimal spelling of a field value (at most 16 bits wide, so at most 5 digits). -/
def decimal (n : Nat) : List Byte := decimalUpTo 5 n

end Sys2Proof
end

