-- ==== Sys2Proof/Machine/Operands.lean ====
section
/-! DEFINITION. Operand forms: the operand count of a format, register and immediate tokens, and the field router
(40_encode_pipeline.md R103 to R107; 30_encoding.md R76 to R78). -/

namespace Sys2Proof

/-- `NOPS(fmt)`, the operand count of a format (R103). -/
def Format.nops : Format → Nat
  | .rType => 3
  | .iType => 3
  | .jrType => 1
  | .haltType => 0

/-- The token of operand slot `k` (R16); the count check of R103 comes first, so the slot is there when it is read. -/
def slot (ops : List Token) (k : Nat) : Token := ops.getD k []

/-- A register token is well-shaped: a marker, then one or more decimal digits and nothing else (R76). -/
def regShaped (markers : List Byte) : Token → Bool
  | [] => false
  | m :: ds => markers.contains m && !ds.isEmpty && ds.all isDigit

/-- `ParseReg` (R104): shape first, then range; an index above 31 is rejected, never wrapped. -/
def parseReg (markers : List Byte) (t : Token) : Except EncodeError RegIndex :=
  if !regShaped markers t then .error .malformedOperands
  else if 31 < dec t.tail then .error .invalidRegister
  else .ok (BitVec.ofNat 5 (dec t.tail))

/-- The sign of an immediate token and what follows it (R105): one optional `+` or `-`. -/
def splitSign : Token → Bool × List Byte
  | [] => (false, [])
  | c :: s => if c == 0x2B#8 then (false, s) else if c == 0x2D#8 then (true, s) else (false, c :: s)

/-- An immediate token is well-shaped: an optional sign, then one or more decimal digits (R77). -/
def immShaped (t : Token) : Bool := !(splitSign t).2.isEmpty && (splitSign t).2.all isDigit

/-- The integer a well-shaped immediate token denotes, unbounded (R77). -/
def immValue (t : Token) : Int := if (splitSign t).1 then -(dec (splitSign t).2 : Int) else dec (splitSign t).2

/-- `low_16(v) = v mod 65536`, the Euclidean remainder as a 16-bit field (R11, R67, R106). -/
def low16 (v : Int) : Imm16 := BitVec.ofNat 16 (v % 65536).toNat

/-- `ParseImm` (R105): any integer is accepted and reduced modulo 2^16. -/
def parseImm (t : Token) : Except EncodeError Imm16 :=
  if immShaped t then .ok (low16 (immValue t)) else .error .malformedOperands

/-- The field router (R107): which slot feeds which field, slots parsed in the order 0, 1, 2 (R111), and 0 in every
field the format does not use. -/
def route (markers : List Byte) (fmt : Format) (ops : List Token) : Except EncodeError Fields :=
  match fmt with
  | .rType => do
      let rd ← parseReg markers (slot ops 0)
      let rs ← parseReg markers (slot ops 1)
      let rt ← parseReg markers (slot ops 2)
      return { rs := rs, rt := rt, rd := rd, imm16 := 0#16 }
  | .iType => do
      let rt ← parseReg markers (slot ops 0)
      let rs ← parseReg markers (slot ops 1)
      let imm16 ← parseImm (slot ops 2)
      return { rs := rs, rt := rt, rd := 0#5, imm16 := imm16 }
  | .jrType => do
      let rs ← parseReg markers (slot ops 0)
      return { rs := rs, rt := 0#5, rd := 0#5, imm16 := 0#16 }
  | .haltType => return { rs := 0#5, rt := 0#5, rd := 0#5, imm16 := 0#16 }

end Sys2Proof
end

