-- ==== Sys2Proof/Syntax.lean ====
section
/-! DEFINITION. Instructions as the block sees them: "opcode mnemonic plus an ordered sequence of operand tokens"
(00_scope.md R15). One constructor per row of spec/opcode_table.json. -/

namespace Sys2Proof

/-- A line's instruction: the mnemonic (the constructor) and the operand tokens, slots 0, 1, ... in textual order
(R15, R16, R78). Any number of tokens of any shape is an instruction: a wrong count or an ill-shaped token is
answered by an error value (R103 to R105), not by the absence of an instruction. -/
inductive Instr where
  | add (ops : List Token)
  | addi (ops : List Token)
  | sub (ops : List Token)
  | subi (ops : List Token)
  | mul (ops : List Token)
  | muli (ops : List Token)
  | or (ops : List Token)
  | ori (ops : List Token)
  | and (ops : List Token)
  | andi (ops : List Token)
  | xor (ops : List Token)
  | xori (ops : List Token)
  | ldw (ops : List Token)
  | stw (ops : List Token)
  | bz (ops : List Token)
  | beq (ops : List Token)
  | jr (ops : List Token)
  | halt (ops : List Token)
deriving DecidableEq, Repr

/-- The mnemonic of an instruction. -/
def Instr.mnemonic : Instr → Mnemonic
  | .add _ => .add
  | .addi _ => .addi
  | .sub _ => .sub
  | .subi _ => .subi
  | .mul _ => .mul
  | .muli _ => .muli
  | .or _ => .or
  | .ori _ => .ori
  | .and _ => .and
  | .andi _ => .andi
  | .xor _ => .xor
  | .xori _ => .xori
  | .ldw _ => .ldw
  | .stw _ => .stw
  | .bz _ => .bz
  | .beq _ => .beq
  | .jr _ => .jr
  | .halt _ => .halt

/-- The operand tokens of an instruction. -/
def Instr.operands : Instr → List Token
  | .add ops => ops
  | .addi ops => ops
  | .sub ops => ops
  | .subi ops => ops
  | .mul ops => ops
  | .muli ops => ops
  | .or ops => ops
  | .ori ops => ops
  | .and ops => ops
  | .andi ops => ops
  | .xor ops => ops
  | .xori ops => ops
  | .ldw ops => ops
  | .stw ops => ops
  | .bz ops => ops
  | .beq ops => ops
  | .jr ops => ops
  | .halt ops => ops

/-- The instruction with a given mnemonic and operand tokens. -/
def Instr.ofMnemonic : Mnemonic → List Token → Instr
  | .add => .add
  | .addi => .addi
  | .sub => .sub
  | .subi => .subi
  | .mul => .mul
  | .muli => .muli
  | .or => .or
  | .ori => .ori
  | .and => .and
  | .andi => .andi
  | .xor => .xor
  | .xori => .xori
  | .ldw => .ldw
  | .stw => .stw
  | .bz => .bz
  | .beq => .beq
  | .jr => .jr
  | .halt => .halt

end Sys2Proof
end

