-- ==== Sys2Proof/WellFormed.lean ====
section
/-! DEFINITION. Which instruction terms can come from a line: every operand is a token (00_scope.md R13). -/

namespace Sys2Proof

/-- A token is not empty and holds no WS byte (R13). -/
def isToken (t : Token) : Bool := !t.isEmpty && t.all fun b => !isWs b

/-- An instruction is well-formed when every operand is a token. Its operand count, the shape of its tokens and
the range of its registers are NOT checked here: the block answers those itself (R103 to R105). -/
def WellFormed (i : Instr) : Bool := i.operands.all isToken

end Sys2Proof
end

