-- ==== Sys2Proof/Decode.lean ====
section
/-! DEFINITION. The OpcodeTable ROM's contents; the front end that reads an instruction from a line (tokenizer and
opcode mux, 40_encode_pipeline.md R101, R102); the line of an instruction; then, over words, the encoding of each
instruction from its own rule (41 to 44) and the decoder that R115 allows for tests. -/

namespace Sys2Proof

/-- The key of a mnemonic in the ROM: its upper-case spelling (R21). -/
def Mnemonic.key : Mnemonic → Token
  | .add => ascii ['A', 'D', 'D']
  | .addi => ascii ['A', 'D', 'D', 'I']
  | .sub => ascii ['S', 'U', 'B']
  | .subi => ascii ['S', 'U', 'B', 'I']
  | .mul => ascii ['M', 'U', 'L']
  | .muli => ascii ['M', 'U', 'L', 'I']
  | .or => ascii ['O', 'R']
  | .ori => ascii ['O', 'R', 'I']
  | .and => ascii ['A', 'N', 'D']
  | .andi => ascii ['A', 'N', 'D', 'I']
  | .xor => ascii ['X', 'O', 'R']
  | .xori => ascii ['X', 'O', 'R', 'I']
  | .ldw => ascii ['L', 'D', 'W']
  | .stw => ascii ['S', 'T', 'W']
  | .bz => ascii ['B', 'Z']
  | .beq => ascii ['B', 'E', 'Q']
  | .jr => ascii ['J', 'R']
  | .halt => ascii ['H', 'A', 'L', 'T']

/-- The contents of the OpcodeTable ROM (R21), present from power-up (R201). -/
def opcodeTable : List RomEntry := [
  ⟨.add, 0#6, .rType⟩, ⟨.addi, 1#6, .iType⟩, ⟨.sub, 2#6, .rType⟩, ⟨.subi, 3#6, .iType⟩,
  ⟨.mul, 4#6, .rType⟩, ⟨.muli, 5#6, .iType⟩, ⟨.or, 6#6, .rType⟩, ⟨.ori, 7#6, .iType⟩,
  ⟨.and, 8#6, .rType⟩, ⟨.andi, 9#6, .iType⟩, ⟨.xor, 10#6, .rType⟩, ⟨.xori, 11#6, .iType⟩,
  ⟨.ldw, 12#6, .iType⟩, ⟨.stw, 13#6, .iType⟩, ⟨.bz, 14#6, .iType⟩, ⟨.beq, 15#6, .iType⟩,
  ⟨.jr, 16#6, .jrType⟩, ⟨.halt, 17#6, .haltType⟩]

/-! ## Lines to instructions -/

/-- A run of non-WS bytes in front of a token list: an empty run is no token (R74). -/
def closeRun (run : Token) (toks : List Token) : List Token := if run.isEmpty then toks else run :: toks

/-- The run of non-WS bytes the line starts with (empty where it starts with a WS byte), and the tokens after it. -/
def splitRun : Line → Token × List Token
  | [] => ([], [])
  | b :: bs =>
    if isWs b then ([], closeRun (splitRun bs).1 (splitRun bs).2)
    else (b :: (splitRun bs).1, (splitRun bs).2)

/-- `Tokenize` (R101, R74): the maximal runs of non-WS bytes of the line, in order. -/
def tokenize (line : Line) : List Token := closeRun (splitRun line).1 (splitRun line).2

/-- The mnemonic token folded to upper case byte by byte (R75). -/
def foldCase (t : Token) : Token := t.map upper

/-- The ROM lookup (R23): a hit is the entry whose key equals the folded token byte for byte. -/
def romLookup (rom : List RomEntry) (folded : Token) : Option RomEntry :=
  rom.find? fun e => e.mnemonic.key == folded

/-- The opcode mux (R102): the ROM's entry for a folded mnemonic, UnknownOpcode on a miss. -/
def opcodeMux (rom : List RomEntry) (folded : Token) : Except EncodeError RomEntry :=
  match romLookup rom folded with
  | some e => .ok e
  | none => .error .unknownOpcode

/-- The front end (R100's first lines): a line's instruction, or UnknownOpcode where it has no token (D7) or its
first token, folded, is no mnemonic of the ROM. Total on any bytes (D8). -/
def decodeLine (rom : List RomEntry) (line : Line) : Except EncodeError Instr :=
  match tokenize line with
  | [] => .error .unknownOpcode
  | t :: ops => do
    let e ← opcodeMux rom (foldCase t)
    return Instr.ofMnemonic e.mnemonic ops

/-- Tokens joined by single spaces. -/
def joinTokens : List Token → Line
  | [] => []
  | [t] => t
  | t :: ts => t ++ 0x20#8 :: joinTokens ts

/-- The line of an instruction: its mnemonic in upper case and its operand tokens (R78). -/
def Instr.toLine (i : Instr) : Line := joinTokens (i.mnemonic.key :: i.operands)

/-! ## Words: each instruction's encoding, from its own rule -/

/-- An R-type word over its fixed bits (R62, R131 to R136). -/
def rWord (markers : List Byte) (fixed : Word) (ops : List Token) : Except EncodeError Word :=
  match ops with
  | [t0, t1, t2] => do
      let rd ← parseReg markers t0
      let rs ← parseReg markers t1
      let rt ← parseReg markers t2
      return fixed ||| rs.setWidth 32 <<< 21 ||| rt.setWidth 32 <<< 16 ||| rd.setWidth 32 <<< 11
  | _ => .error .malformedOperands

/-- An I-type word over its fixed bits (R63, R141 to R150). -/
def iWord (markers : List Byte) (fixed : Word) (ops : List Token) : Except EncodeError Word :=
  match ops with
  | [t0, t1, t2] => do
      let rt ← parseReg markers t0
      let rs ← parseReg markers t1
      let imm ← parseImm t2
      return fixed ||| rs.setWidth 32 <<< 21 ||| rt.setWidth 32 <<< 16 ||| imm.setWidth 32
  | _ => .error .malformedOperands

/-- A JR-type word over its fixed bits (R64, R160). -/
def jrWord (markers : List Byte) (fixed : Word) (ops : List Token) : Except EncodeError Word :=
  match ops with
  | [t0] => do
      let rs ← parseReg markers t0
      return fixed ||| rs.setWidth 32 <<< 21
  | _ => .error .malformedOperands

/-- The Halt-type word (R65, R165). -/
def haltWord (fixed : Word) (ops : List Token) : Except EncodeError Word :=
  match ops with
  | [] => .ok fixed
  | _ => .error .malformedOperands

/-- The word an instruction's own rule gives it, or the error that rule raises (R131 to R136, R141 to R150, R160,
R165). The constants are the `match` values of those rules. Written apart from the machine's own path, which goes
through the ROM, the field router and the bit-packer (R100): that the two agree is a statement for proof. The marker set is
an argument (R7, U10). -/
def encodeWith (markers : List Byte) : Instr → Except EncodeError Word
  | .add ops => rWord markers 0x00000000#32 ops
  | .addi ops => iWord markers 0x04000000#32 ops
  | .sub ops => rWord markers 0x08000000#32 ops
  | .subi ops => iWord markers 0x0C000000#32 ops
  | .mul ops => rWord markers 0x10000000#32 ops
  | .muli ops => iWord markers 0x14000000#32 ops
  | .or ops => rWord markers 0x18000000#32 ops
  | .ori ops => iWord markers 0x1C000000#32 ops
  | .and ops => rWord markers 0x20000000#32 ops
  | .andi ops => iWord markers 0x24000000#32 ops
  | .xor ops => rWord markers 0x28000000#32 ops
  | .xori ops => iWord markers 0x2C000000#32 ops
  | .ldw ops => iWord markers 0x30000000#32 ops
  | .stw ops => iWord markers 0x34000000#32 ops
  | .bz ops => iWord markers 0x38000000#32 ops
  | .beq ops => iWord markers 0x3C000000#32 ops
  | .jr ops => jrWord markers 0x40000000#32 ops
  | .halt ops => haltWord 0x44000000#32 ops

/-- The word or error of an instruction under the default marker set. -/
def encode (i : Instr) : Except EncodeError Word := encodeWith Config.regMarkers i

/-- `encode(line)` (R14, R100), by way of the per-mnemonic rules: what a block built with this marker set must answer
to a line. -/
def encodeLineWith (markers : List Byte) (line : Line) : Except EncodeError Word := do
  let i ← decodeLine opcodeTable line
  encodeWith markers i

/-- `encode(line)` under the default marker set. -/
def encodeLine (line : Line) : Except EncodeError Word := encodeLineWith Config.regMarkers line

/-! ## Words to instructions, for tests (R115) -/

/-- The canonical spelling of a register operand: a marker and the register's index. -/
def regToken (marker : Byte) (r : RegIndex) : Token := marker :: decimal r.toNat

/-- The canonical spelling of an immediate operand: its 16-bit pattern as an unsigned decimal number. -/
def immToken (imm : Imm16) : Token := decimal imm.toNat

/-- `word[31:26]`, the opcode field (R10, R69). -/
def opField (w : Word) : Opcode := w.extractLsb' 26 6
/-- `word[25:21]`, the rs field (R62 to R64). -/
def rsField (w : Word) : RegIndex := w.extractLsb' 21 5
/-- `word[20:16]`, the rt field (R62, R63). -/
def rtField (w : Word) : RegIndex := w.extractLsb' 16 5
/-- `word[15:11]`, the rd field (R62). -/
def rdField (w : Word) : RegIndex := w.extractLsb' 11 5
/-- `word[15:0]`, the immediate field (R63). -/
def immField (w : Word) : Imm16 := w.extractLsb' 0 16

/-- Every bit the format marks unused is 0 (R62, R64, R65, R66). -/
def unusedBitsZero : Format → Word → Bool
  | .rType, w => w.extractLsb' 0 11 == 0#11
  | .iType, _ => true
  | .jrType, w => w.extractLsb' 0 21 == 0#21
  | .haltType, w => w.extractLsb' 0 26 == 0#26

/-- The fields of a word, read at the positions of R62 and R63; a format that lacks a field does not look at it. -/
def wordFields (w : Word) : Fields := { rs := rsField w, rt := rtField w, rd := rdField w, imm16 := immField w }

/-- The canonical operand tokens for given fields, in the textual order of R78, with a given register marker. -/
def canonicalOperands (marker : Byte) : Format → Fields → List Token
  | .rType, f => [regToken marker f.rd, regToken marker f.rs, regToken marker f.rt]
  | .iType, f => [regToken marker f.rt, regToken marker f.rs, immToken f.imm16]
  | .jrType, f => [regToken marker f.rs]
  | .haltType, _ => []

/-- The test decoder of R115: the instruction, in canonical spelling with a given register marker, whose word is `w`.
It is no part of the block (R5). DESIGN CHOICE (log entry 1): an unassigned opcode (R71) and a set unused bit (R66)
are rejected by name; no word of the block has either (R72). Safe. -/
def decodeWordWith (marker : Byte) (w : Word) : Except WordError Instr :=
  match opcodeTable.find? (fun e => e.opcode == opField w) with
  | none => .error .unassignedOpcode
  | some e =>
    if unusedBitsZero e.format w then
      .ok (Instr.ofMnemonic e.mnemonic (canonicalOperands marker e.format (wordFields w)))
    else .error .unusedBitsSet

/-- The test decoder with the default build's marker. -/
def decodeWord (w : Word) : Except WordError Instr := decodeWordWith Config.canonicalMarker w

/-- The instruction of an opcode-table word: bits numbered as the table numbers them, bit 0 the least significant
(R10), every bit above `nbits` 0. DESIGN CHOICE (log entry 1): the table's words are this block's OUTPUTS, so the
decoder asked here is the test decoder of R115. -/
def decodeTableWord (nbits w : Nat) : Option Instr :=
  if w < 2 ^ min nbits 32 then (decodeWord (BitVec.ofNat 32 w)).toOption else none

/-- The line that holds an opcode-table word's instruction in canonical spelling; the empty line where the word is
no instruction. -/
def tableWordLine (nbits w : Nat) : Line :=
  match decodeTableWord nbits w with
  | some i => i.toLine
  | none => []

end Sys2Proof
end

