-- ==== Sys2Proof/Machine/State.lean ====
section
/-! DEFINITION. The block's state: its one stored item, the OpcodeTable ROM, and its ports (10_state.md R20, R29);
its value at power-up; and the reasons a step can stop. -/

namespace Sys2Proof.Machine

/-- Everything R20 lists. There is no register file, program counter, flag register, control register or memory
(R20, R25 to R28, R40). -/
structure State where
  /-- The OpcodeTable ROM (R21 to R24); no operation of the machine writes it (R22). -/
  rom : List RomEntry
  /-- The `line` input port, driven by the caller (R29, R182). -/
  line : Line
  /-- The `ok` output port, 1 bit: `true` is 1 (R27, R29). -/
  ok : Bool
  /-- The `err` output port, 3 bits (R29, R170). -/
  err : BitVec 3
  /-- The `word` output port, 32 bits (R29). -/
  word : Word
  /-- The `hex` output port, 8 ASCII bytes (R29, R110). -/
  hex : List Byte
deriving DecidableEq, Repr

/-- The reasons the model stops. Neither is reached by `step` (the block never traps: R175, R178). -/
inductive Fault where
  /-- Raised by `encodeAs` (Machine/Ops.lean) if a field assembly would exceed 32 bits: the check R109 allows to be
  kept and R174 calls a fault of the model if reached. Unreachable for every state; safe. -/
  | internalInvariantViolation
  /-- Raised by `evaluateWithin` (Machine/Ops.lean), through `stepWith`, for a line over a realisation's finite MAX_LINE_BYTES (R9, D23,
  U11). `step` has no bound, so it never raises it. Safe: it stops where a realisation goes its own way. -/
  | lineTooLong
deriving DecidableEq, Repr

/-- The reasons an instruction has no meaning. -/
inductive Refusal where
  /-- An instruction not modelled yet, by its mnemonic. No arm of `exec` raises it: every instruction has its
  meaning. Safe. -/
  | notModelled (mnemonic : String)
deriving DecidableEq, Repr

/-- The block at power-up (R200 to R202): the ROM holds R21. The caller has driven nothing yet, and the spec gives
`line` no value: DESIGN CHOICE the empty line (log entry 3). The outputs are what R202 says, the answer to that
line: UnknownOpcode (R101, D7), with `word` and `hex` as R112 drives them. DEDUCED (log entry 4). -/
def State.reset : State where
  rom := opcodeTable
  line := []
  ok := false
  err := 1#3
  word := 0x00000000#32
  hex := ascii ['0', '0', '0', '0', '0', '0', '0', '0']

end Sys2Proof.Machine
end

