-- ==== Sys2Proof/Machine/Flags.lean ====
section
/-! DEFINITION. The block's only flags, `ok` and `err`, as computed from a result (10_state.md R27,
60_exceptions.md R170). Every evaluation writes both; no instruction has a flag of its own. -/

namespace Sys2Proof.Machine

/-- The code of an error on the `err` port (R170, D4). -/
def errorCode : EncodeError → BitVec 3
  | .unknownOpcode => 1#3
  | .malformedOperands => 2#3
  | .invalidRegister => 3#3
  | .internalInvariantViolation => 4#3

/-- `ok` of a result: 1 exactly when it is a word (R27). -/
def okFlag : Except EncodeError Word → Bool
  | .ok _ => true
  | .error _ => false

/-- `err` of a result: 0 for a word, else the error's code (R27, R170). -/
def errFlag : Except EncodeError Word → BitVec 3
  | .ok _ => 0#3
  | .error e => errorCode e

end Sys2Proof.Machine
end

