-- ==== Sys2Proof/Machine/Ops.lean ====
section
/-! DEFINITION. The shared operations: the bit-packer, the hex renderer, driving the output ports (success and error
delivery), and the encode stages every mnemonic shares (40_encode_pipeline.md R100 to R112). -/

namespace Sys2Proof.Machine

/-! ## The bit-packer -/

/-- `Pack` (R108): the fields of the format, most significant first (R41, R62 to R65); unused bits 0 (R66). -/
def pack (fmt : Format) (op : Opcode) (f : Fields) : Word :=
  match fmt with
  | .rType => op ++ f.rs ++ f.rt ++ f.rd ++ 0#11
  | .iType => op ++ f.rs ++ f.rt ++ f.imm16
  | .jrType => op ++ f.rs ++ 0#21
  | .haltType => op ++ 0#26

/-- The packed value as R108's arithmetic has it, before any width limit: what the check of R109 looks at. -/
def assembledValue (fmt : Format) (op : Opcode) (f : Fields) : Nat :=
  match fmt with
  | .rType => op.toNat <<< 26 ||| f.rs.toNat <<< 21 ||| f.rt.toNat <<< 16 ||| f.rd.toNat <<< 11
  | .iType => op.toNat <<< 26 ||| f.rs.toNat <<< 21 ||| f.rt.toNat <<< 16 ||| f.imm16.toNat
  | .jrType => op.toNat <<< 26 ||| f.rs.toNat <<< 21
  | .haltType => op.toNat <<< 26

/-- The field-mux form of the router and packer (R114): five multiplexers selected by the format tag. -/
def packMux (fmt : Format) (op : Opcode) (f : Fields) : Word :=
  op
  ++ (if fmt = .haltType then 0#5 else f.rs)
  ++ (if fmt = .rType ∨ fmt = .iType then f.rt else 0#5)
  ++ (if fmt = .rType then f.rd else if fmt = .iType then f.imm16.extractLsb' 11 5 else 0#5)
  ++ (if fmt = .iType then f.imm16.extractLsb' 0 11 else 0#11)

/-! ## Rendering -/

/-- The 16 digits of R110. -/
def hexDigits : List Byte :=
  ascii ['0', '1', '2', '3', '4', '5', '6', '7', '8', '9', 'A', 'B', 'C', 'D', 'E', 'F']

/-- The digit of one nibble (R110). -/
def hexDigit (n : BitVec 4) : Byte := hexDigits.getD n.toNat 0#8

/-- `render(w)` (R110): byte `i` is the digit of `w[31-4i : 28-4i]`. -/
def renderHex (w : Word) : List Byte :=
  [0, 1, 2, 3, 4, 5, 6, 7].map fun i => hexDigit (w.extractLsb' (28 - 4 * i) 4)

/-- The word as bytes, big-endian (R42). -/
def wordBytes (w : Word) : List Byte :=
  [w.extractLsb' 24 8, w.extractLsb' 16 8, w.extractLsb' 8 8, w.extractLsb' 0 8]

/-! ## The ports -/

/-- The caller drives the `line` port (R182, R183). -/
def State.present (l : Line) (s : State) : State := { s with line := l }

/-- The `word` port of a result: 0 on an error (R112, D5). -/
def wordPort : Except EncodeError Word → Word
  | .ok w => w
  | .error _ => 0x00000000#32

/-- The block drives its four outputs from a result (R100). Error delivery is this operation on an `.error`: `ok`
0, `err` the code, no trap, nothing saved, no vector (R112, R175); there is no return from it (R176). -/
def State.drive (r : Except EncodeError Word) (s : State) : State :=
  { s with ok := okFlag r, err := errFlag r, word := wordPort r, hex := renderHex (wordPort r) }

/-! ## The encode stages -/

/-- The operand-count check (R103): MalformedOperands before any operand is parsed. -/
def checkCount (fmt : Format) (ops : List Token) : Except EncodeError Unit :=
  if ops.length = fmt.nops then .ok () else .error .malformedOperands

/-- The stages of R100 up to the field router for one mnemonic: opcode mux, count check, operand parse and
routing. The opcode and the format come from the ROM only (R116); the marker set is an argument (R7, U10). -/
def routeAs (markers : List Byte) (rom : List RomEntry) (m : Mnemonic) (ops : List Token) :
    Except EncodeError (RomEntry × Fields) := do
  let e ← opcodeMux rom m.key
  checkCount e.format ops
  let f ← route markers e.format ops
  return (e, f)

/-- What the block does with a line that holds this mnemonic and these operand tokens (R100): deliver the first
error met, or pack the word and drive it. The check that the assembly fits in 32 bits is kept as a fault of the
model (R109, R174; log entry 10). -/
def encodeAs (markers : List Byte) (m : Mnemonic) (ops : List Token) (s : State) :
    Host.Outcome State Fault Refusal :=
  match routeAs markers s.rom m ops with
  | .error e => .next (s.drive (.error e))
  | .ok (e, f) =>
    if assembledValue e.format e.opcode f < 2 ^ 32 then .next (s.drive (.ok (pack e.format e.opcode f)))
    else .fault .internalInvariantViolation

/-- An instruction on a block built with any marker set (R7, U10). -/
def execWith (markers : List Byte) (i : Instr) (s : State) : Host.Outcome State Fault Refusal :=
  encodeAs markers i.mnemonic i.operands s

/-- The line is within a realisation's length bound (R9); no bound admits every line. -/
def lineFits (bound : Option Nat) (l : Line) : Bool :=
  match bound with
  | none => true
  | some n => l.length ≤ n

/-- One request (R100): the front end reads the line's instruction and `run` is what is done with it; a line that
gives none is answered by its error. -/
def evaluateWith (run : Instr → State → Host.Outcome State Fault Refusal) (s : State) :
    Host.Outcome State Fault Refusal :=
  match decodeLine s.rom s.line with
  | .error e => .next (s.drive (.error e))
  | .ok i => run i s

/-- One request on a realisation with a given bound on the line's length (R9, D23): a longer line is a fault of
the model; a line within the bound is evaluated. -/
def evaluateWithin (bound : Option Nat) (run : Instr → State → Host.Outcome State Fault Refusal) (s : State) :
    Host.Outcome State Fault Refusal :=
  if lineFits bound s.line then evaluateWith run s else .fault .lineTooLong

end Sys2Proof.Machine
end

