-- ==== Sys2Proof/Machine/HaltType.lean ====
section
/-! DEFINITION. Meanings of the Halt-type family: no operand; HALT has no effect on the block itself (R179) (44_halt_type.md).
The effect the spec gives an instruction is the word, or the error, the block drives for it; what a processor does
with the word is out of scope (00_scope.md R5). Each meaning is that of the default build; `execWith` is any build's
(R7). -/

namespace Sys2Proof.Machine

/-- HALT (R165). -/
def execHalt (ops : List Token) (s : State) : Host.Outcome State Fault Refusal :=
  encodeAs Config.regMarkers .halt ops s

end Sys2Proof.Machine
end

