-- ==== Sys2Proof/Machine/IType.lean ====
section
/-! DEFINITION. Meanings of the I-type family (R140): slots rt, rs, imm; word opcode.rs.rt.imm16 (42_i_type.md).
The effect the spec gives an instruction is the word, or the error, the block drives for it; what a processor does
with the word is out of scope (00_scope.md R5). Each meaning is that of the default build; `execWith` is any build's
(R7). -/

namespace Sys2Proof.Machine

/-- ADDI (R141). -/
def execAddi (ops : List Token) (s : State) : Host.Outcome State Fault Refusal :=
  encodeAs Config.regMarkers .addi ops s

/-- SUBI (R142). -/
def execSubi (ops : List Token) (s : State) : Host.Outcome State Fault Refusal :=
  encodeAs Config.regMarkers .subi ops s

/-- MULI (R143). -/
def execMuli (ops : List Token) (s : State) : Host.Outcome State Fault Refusal :=
  encodeAs Config.regMarkers .muli ops s

/-- ORI (R144). -/
def execOri (ops : List Token) (s : State) : Host.Outcome State Fault Refusal :=
  encodeAs Config.regMarkers .ori ops s

/-- ANDI (R145). -/
def execAndi (ops : List Token) (s : State) : Host.Outcome State Fault Refusal :=
  encodeAs Config.regMarkers .andi ops s

/-- XORI (R146). -/
def execXori (ops : List Token) (s : State) : Host.Outcome State Fault Refusal :=
  encodeAs Config.regMarkers .xori ops s

/-- LDW (R147). -/
def execLdw (ops : List Token) (s : State) : Host.Outcome State Fault Refusal :=
  encodeAs Config.regMarkers .ldw ops s

/-- STW (R148). -/
def execStw (ops : List Token) (s : State) : Host.Outcome State Fault Refusal :=
  encodeAs Config.regMarkers .stw ops s

/-- BZ (R149). -/
def execBz (ops : List Token) (s : State) : Host.Outcome State Fault Refusal :=
  encodeAs Config.regMarkers .bz ops s

/-- BEQ (R150). -/
def execBeq (ops : List Token) (s : State) : Host.Outcome State Fault Refusal :=
  encodeAs Config.regMarkers .beq ops s

end Sys2Proof.Machine
end

