-- ==== Sys2Proof/Machine/JrType.lean ====
section
/-! DEFINITION. Meanings of the JR-type family: slot rs; word opcode.rs.0 (43_jr_type.md).
The effect the spec gives an instruction is the word, or the error, the block drives for it; what a processor does
with the word is out of scope (00_scope.md R5). Each meaning is that of the default build; `execWith` is any build's
(R7). -/

namespace Sys2Proof.Machine

/-- JR (R160). -/
def execJr (ops : List Token) (s : State) : Host.Outcome State Fault Refusal :=
  encodeAs Config.regMarkers .jr ops s

end Sys2Proof.Machine
end

