-- ==== Sys2Proof/Machine/RType.lean ====
section
/-! DEFINITION. Meanings of the R-type family (R130): slots rd, rs, rt; word opcode.rs.rt.rd.0 (41_r_type.md).
The effect the spec gives an instruction is the word, or the error, the block drives for it; what a processor does
with the word is out of scope (00_scope.md R5). Each meaning is that of the default build; `execWith` is any build's
(R7). -/

namespace Sys2Proof.Machine

/-- ADD (R131). -/
def execAdd (ops : List Token) (s : State) : Host.Outcome State Fault Refusal :=
  encodeAs Config.regMarkers .add ops s

/-- SUB (R132). -/
def execSub (ops : List Token) (s : State) : Host.Outcome State Fault Refusal :=
  encodeAs Config.regMarkers .sub ops s

/-- MUL (R133). -/
def execMul (ops : List Token) (s : State) : Host.Outcome State Fault Refusal :=
  encodeAs Config.regMarkers .mul ops s

/-- OR (R134). -/
def execOr (ops : List Token) (s : State) : Host.Outcome State Fault Refusal :=
  encodeAs Config.regMarkers .or ops s

/-- AND (R135). -/
def execAnd (ops : List Token) (s : State) : Host.Outcome State Fault Refusal :=
  encodeAs Config.regMarkers .and ops s

/-- XOR (R136). -/
def execXor (ops : List Token) (s : State) : Host.Outcome State Fault Refusal :=
  encodeAs Config.regMarkers .xor ops s

end Sys2Proof.Machine
end

