-- ==== Sys2Proof/Machine/Dispatch.lean ====
section
/-! DEFINITION. One arm per instruction. -/

namespace Sys2Proof.Machine

def exec (i : Instr) (s : State) : Host.Outcome State Fault Refusal :=
  match i with
  | .add ops => Sys2Proof.Machine.execAdd ops s
  | .addi ops => Sys2Proof.Machine.execAddi ops s
  | .sub ops => Sys2Proof.Machine.execSub ops s
  | .subi ops => Sys2Proof.Machine.execSubi ops s
  | .mul ops => Sys2Proof.Machine.execMul ops s
  | .muli ops => Sys2Proof.Machine.execMuli ops s
  | .or ops => Sys2Proof.Machine.execOr ops s
  | .ori ops => Sys2Proof.Machine.execOri ops s
  | .and ops => Sys2Proof.Machine.execAnd ops s
  | .andi ops => Sys2Proof.Machine.execAndi ops s
  | .xor ops => Sys2Proof.Machine.execXor ops s
  | .xori ops => Sys2Proof.Machine.execXori ops s
  | .ldw ops => Sys2Proof.Machine.execLdw ops s
  | .stw ops => Sys2Proof.Machine.execStw ops s
  | .bz ops => Sys2Proof.Machine.execBz ops s
  | .beq ops => Sys2Proof.Machine.execBeq ops s
  | .jr ops => Sys2Proof.Machine.execJr ops s
  | .halt ops => Sys2Proof.Machine.execHalt ops s

end Sys2Proof.Machine
end

