-- ==== Sys2Proof/Machine/Step.lean ====
section
/-! DEFINITION. One step: one request evaluated (40_encode_pipeline.md R100). The block has no program counter
(10_state.md R26): what it runs next is what the caller has put on the `line` port. -/

namespace Sys2Proof.Machine

/-- One request on a block built with any parameters (R7, R9, R28). -/
def stepWith (p : Params) (s : State) : Host.Outcome State Fault Refusal :=
  evaluateWithin p.maxLineBytes (execWith p.regMarkers) s

/-- One request on the default build: read the `line` port, drive `ok`, `err`, `word`, `hex` (R100). -/
def step (s : State) : Host.Outcome State Fault Refusal := evaluateWithin Config.maxLineBytes exec s

/-- The state in which the next step encodes the instruction of an opcode-table word: the caller has presented its
line (log entry 1). Nothing else changes. -/
def State.withFetchWord (s : State) (nbits w : Nat) : State := s.present (tableWordLine nbits w)

end Sys2Proof.Machine
end

