-- ==== Sys2Proof/Machine/Caller.lean ====
section
/-! DEFINITION. The caller's side of the contract (60_exceptions.md R182, R183; 20_memory.md R48, R51). The caller is
outside the block (00_scope.md R5): nothing here is state of the machine. The policy is the reference caller's
(R176): skip a rejected line and go on (log entry 12). -/

namespace Sys2Proof.Machine

/-- What the block answers to one request: its four output ports (R29). -/
structure Response where
  ok : Bool
  err : BitVec 3
  word : Word
  hex : List Byte
deriving DecidableEq, Repr

/-- The four output ports of a state. -/
def State.response (s : State) : Response := { ok := s.ok, err := s.err, word := s.word, hex := s.hex }

/-- One request: the caller presents a line and the block evaluates it (R182). -/
def request (l : Line) (s : State) : Host.Outcome State Fault Refusal := step (s.present l)

/-- The caller presents lines one by one and collects the answers in order (R48). -/
def serve : List Line → State → Host.Outcome (State × List Response) Fault Refusal
  | [], s => .next (s, [])
  | l :: ls, s =>
    match request l s with
    | .fault r => .fault r
    | .refused r => .refused r
    | .next t =>
      match serve ls t with
      | .fault r => .fault r
      | .refused r => .refused r
      | .next (u, rs) => .next (u, t.response :: rs)

/-- A line whose only token is `q` or `quit` in any letter case ends the caller's loop; the caller never presents
it (R80, R183). -/
def isSentinel (l : Line) : Bool :=
  match tokenize l with
  | [t] => foldCase t == ascii ['Q'] || foldCase t == ascii ['Q', 'U', 'I', 'T']
  | _ => false

/-- The lines the caller presents: those before the sentinel (R183). -/
def presentedLines (ls : List Line) : List Line := ls.takeWhile fun l => !isSentinel l

/-- The hex strings of the output file: that of each accepted line, in order (R48, R51). -/
def outputFile (rs : List Response) : List (List Byte) := (rs.filter Response.ok).map Response.hex

/-- What the source leaves open of the caller's file, a parameter of a caller model (U14, 91_not_in_source.md N12):
its newline byte sequence and its character encoding. No value is chosen (log entry 12). -/
structure FileFormat where
  /-- The bytes that end a line of the file. -/
  newline : List Byte
  /-- The bytes of the file that stand for one ASCII character. -/
  char : Byte → List Byte

/-- One line of the file: a hex string, newline-terminated (R51). -/
def fileLine (fmt : FileFormat) (hex : List Byte) : List Byte := hex.flatMap fmt.char ++ fmt.newline

/-- The bytes of the file: one line a hex string, each newline-terminated, appended in encounter order (R51). -/
def outputBytes (fmt : FileFormat) (rs : List Response) : List Byte := (outputFile rs).flatMap (fileLine fmt)

/-- A whole run of the reference caller (R51, R176, R183): it presents the lines before the sentinel and writes the
file, which it creates or overwrites, so that nothing the file held before is part of it. -/
def runCaller (fmt : FileFormat) (ls : List Line) (s : State) : Host.Outcome (State × List Byte) Fault Refusal :=
  match serve (presentedLines ls) s with
  | .next (u, rs) => .next (u, outputBytes fmt rs)
  | .fault r => .fault r
  | .refused r => .refused r

end Sys2Proof.Machine
end

