-- ==== Sys2Proof/Machine/Nets.lean ====
section
/-! DEFINITION. The internal nets between the stages (10_state.md R30), computed from the ROM and the line: nothing
stores them (R20). DESIGN CHOICE (log entry 11): a net whose stage the evaluation does not reach is `none`, where the
spec gives it no value: `hit` on a line without a token, `nopsOk` there and on a ROM miss (there is no format to count
for), and every later net. Once the operand count is right, `reg[k]` and `imm` are shown for every slot that parses,
also after a slot that fails. Safe. -/

namespace Sys2Proof.Machine

/-- The nets of R30. -/
structure Nets where
  /-- The tokens of the line (R101). -/
  toks : List Token
  /-- Mnemonic found (R102); `none` where the line has no token to look up. -/
  hit : Option Bool
  /-- Its opcode. -/
  op : Option Opcode
  /-- Its format tag. -/
  fmt : Option Format
  /-- The operand count is the format's (R103); `none` where there is no token or no hit, so no format. -/
  nopsOk : Option Bool
  /-- `reg[k]`: the index parsed from operand slot `k` (R104), for slots 0, 1, 2. -/
  reg : List (Option RegIndex)
  /-- The reduced immediate (R105). -/
  imm : Option Imm16
  /-- `rs`, `rt`, `rd`, `imm16` after the field router (R107). -/
  routed : Option Fields
  /-- The packed word (R108). -/
  word : Option Word
deriving DecidableEq, Repr

/-- How many of a format's slots, from slot 0 on, hold register tokens (R78). -/
def registerSlots : Format → Nat
  | .rType => 3
  | .iType => 2
  | .jrType => 1
  | .haltType => 0

/-- The nets of one evaluation, stage by stage (R101 to R108), under a marker set (R7). -/
def evalNets (markers : List Byte) (rom : List RomEntry) (line : Line) : Nets :=
  let toks := tokenize line
  let ops := toks.tail
  let entry := toks.head?.bind fun t => romLookup rom (foldCase t)
  let counted := entry.filter fun e => ops.length == e.format.nops
  let routed := counted.bind fun e => (route markers e.format ops).toOption
  { toks := toks
    hit := toks.head?.map fun _ => entry.isSome
    op := entry.map RomEntry.opcode
    fmt := entry.map RomEntry.format
    nopsOk := entry.map fun e => ops.length == e.format.nops
    reg := [0, 1, 2].map fun k => counted.bind fun e =>
      if k < registerSlots e.format then (parseReg markers (slot ops k)).toOption else none
    imm := counted.bind fun e => if e.format = .iType then (parseImm (slot ops 2)).toOption else none
    routed := routed
    word := counted.bind fun e => routed.map fun f => pack e.format e.opcode f }

end Sys2Proof.Machine
end

