-- ==== Sys2Proof/Safety.lean ====
section
/-! DEFINITION. What the statements say of a run: the ROM holds its contents, the ports show a result, the ports are
in a state the block can drive. -/

namespace Sys2Proof.Machine

/-- The ROM holds the contents of R21, as it does from power-up (R201). -/
def State.RomLoaded (s : State) : Prop := s.rom = opcodeTable

/-- The ports show a result (R27, R29, R100). On an error `word` and `hex` carry no information and no claim may
read them (R112, 93_implementation_defined.md U4), so nothing is said of them. -/
def State.Shows (t : State) : Except EncodeError Word → Prop
  | .ok w => t.ok = true ∧ t.err = 0#3 ∧ t.word = w ∧ t.hex = renderHex w
  | .error e => t.ok = false ∧ t.err = errorCode e

/-- Two answers a caller cannot tell apart: the same `ok` and `err`, and on acceptance the same `word` and `hex`
(which it may not read otherwise: R112, R183). -/
def SameAnswer (r r' : Response) : Prop :=
  r.ok = r'.ok ∧ r.err = r'.err ∧ (r.ok = true → r.word = r'.word ∧ r.hex = r'.hex)

/-- The step leaves everything but the output ports as it was: the ROM (R22) and the caller's line. -/
def State.SameInputs (s t : State) : Prop := t.rom = s.rom ∧ t.line = s.line

/-- The block answers an instruction with a result, and leaves the rest alone: it takes a next state whose ports
show it. -/
def Answers (i : Instr) (s : State) (r : Except EncodeError Word) : Prop :=
  ∃ t, exec i s = .next t ∧ t.Shows r ∧ s.SameInputs t

/-- A word of some row of spec/opcode_table.json: an assigned opcode, and 0 in every unused bit (R72). -/
def TableWord (w : Word) : Prop :=
  ∃ e ∈ opcodeTable, e.opcode = opField w ∧ unusedBitsZero e.format w = true

/-- What holds of the ports and the ROM in every state the block can show, whatever the caller drives: the ROM as
R21; either an accepted line's ports (a table word, its rendering, no error: R27, R44, R72) or a rejected line's
(the code of an error that is ever raised: R170, R174, R177). -/
def State.Inv (s : State) : Prop :=
  s.RomLoaded ∧
  ((s.ok = true ∧ s.err = 0#3 ∧ s.hex = renderHex s.word ∧ TableWord s.word) ∨
   (s.ok = false ∧ (s.err = errorCode .unknownOpcode ∨ s.err = errorCode .malformedOperands ∨
      s.err = errorCode .invalidRegister)))

/-- A register token as R76 words it: a marker byte, then one or more decimal digits, and nothing else. -/
def RegisterToken (markers : List Byte) (t : Token) : Prop :=
  ∃ m ds, t = m :: ds ∧ m ∈ markers ∧ ds ≠ [] ∧ ∀ d ∈ ds, isDigit d = true

/-- An immediate token and its value as R77 words them: digits, or `+` digits, or `-` digits for the negative. -/
def ImmediateToken (t : Token) (v : Int) : Prop :=
  ∃ ds, ds ≠ [] ∧ (∀ d ∈ ds, isDigit d = true) ∧
    ((t = ds ∧ v = dec ds) ∨ (t = 0x2B#8 :: ds ∧ v = dec ds) ∨ (t = 0x2D#8 :: ds ∧ v = -(dec ds : Int)))

/-- What is wrong with operand slot `k` of a line of a format, if anything: R111's fourth step, shape before range
in a register slot, shape only in an immediate slot. -/
def SlotFails (markers : List Byte) (fmt : Format) (ops : List Token) (k : Nat) (e : EncodeError) : Prop :=
  if k < registerSlots fmt then
    (¬RegisterToken markers (slot ops k) ∧ e = .malformedOperands) ∨
    (RegisterToken markers (slot ops k) ∧ 31 < dec (slot ops k).tail ∧ e = .invalidRegister)
  else fmt = .iType ∧ k = 2 ∧ (¬∃ v, ImmediateToken (slot ops 2) v) ∧ e = .malformedOperands

/-- A safe outcome: the machine goes on. -/
def Completes (o : Host.Outcome State Fault Refusal) : Prop := ∃ t, o = .next t

end Sys2Proof.Machine
end

