-- ==== Sys2Proof/Certificates/Slice0/Obligations.lean ====
section
/-! DEFINITION. The statements for proof, from the numbered rules of spec/. -/

open Sys2Proof Sys2Proof.Machine

/-! ## Decoding and encoding -/

/-- Lines and words written out from the spec's encodings decode to the instruction they stand for (R131, R147,
R160, R165; L1-1 to L1-4). The word decoder is the test decoder R115 allows; that it rejects, by name, a word with an
unassigned opcode (R71) or a set unused bit (R66), words the block never produces (R72), is the model's choice (log
entry 1). -/
def Obligations.WrittenOutLinesAndWordsDecode : Prop :=
  decodeLine opcodeTable (ascii ['a', 'd', 'D', ' ', 'R', '3', ' ', 'R', '1', ' ', 'R', '2']) =
    .ok (.add [ascii ['R', '3'], ascii ['R', '1'], ascii ['R', '2']]) ∧
  decodeLine opcodeTable (ascii ['N', 'O', 'P']) = .error .unknownOpcode ∧
  decodeWord 0b00000000001000100001100000000000#32 =
    .ok (.add [ascii ['R', '3'], ascii ['R', '1'], ascii ['R', '2']]) ∧
  decodeWord 0b00110000110001110000000000000100#32 =
    .ok (.ldw [ascii ['R', '7'], ascii ['R', '6'], ascii ['4']]) ∧
  decodeWord 0b01000000101000000000000000000000#32 = .ok (.jr [ascii ['R', '5']]) ∧
  decodeWord 0b01000100000000000000000000000000#32 = .ok (.halt []) ∧
  decodeWord 0b01001000000000000000000000000000#32 = .error .unassignedOpcode ∧
  decodeWord 0b01000100000000000000000000000001#32 = .error .unusedBitsSet

/-- R21, R201: at power-up the ROM holds exactly the 18 entries of R21, keys, decimal opcodes and formats. -/
def Obligations.ResetRomHoldsTheEighteenEntries : Prop :=
  State.reset.rom.map (fun e => (e.mnemonic.key, e.opcode.toNat, e.format)) = [
    (ascii ['A', 'D', 'D'], 0, .rType), (ascii ['A', 'D', 'D', 'I'], 1, .iType),
    (ascii ['S', 'U', 'B'], 2, .rType), (ascii ['S', 'U', 'B', 'I'], 3, .iType),
    (ascii ['M', 'U', 'L'], 4, .rType), (ascii ['M', 'U', 'L', 'I'], 5, .iType),
    (ascii ['O', 'R'], 6, .rType), (ascii ['O', 'R', 'I'], 7, .iType),
    (ascii ['A', 'N', 'D'], 8, .rType), (ascii ['A', 'N', 'D', 'I'], 9, .iType),
    (ascii ['X', 'O', 'R'], 10, .rType), (ascii ['X', 'O', 'R', 'I'], 11, .iType),
    (ascii ['L', 'D', 'W'], 12, .iType), (ascii ['S', 'T', 'W'], 13, .iType),
    (ascii ['B', 'Z'], 14, .iType), (ascii ['B', 'E', 'Q'], 15, .iType),
    (ascii ['J', 'R'], 16, .jrType), (ascii ['H', 'A', 'L', 'T'], 17, .haltType)]

/-- R23: the ROM hits exactly on a folded token that is one of its keys, and outputs that key's entry. -/
def Obligations.RomHitsExactlyOnItsKeys : Prop :=
  ∀ t : Token,
    (∀ e, romLookup opcodeTable (foldCase t) = some e ↔ e ∈ opcodeTable ∧ e.mnemonic.key = foldCase t) ∧
    (romLookup opcodeTable (foldCase t) = none ↔ ∀ e ∈ opcodeTable, e.mnemonic.key ≠ foldCase t)

/-- The encoder and decoder of lines agree: for every well-formed instruction, whatever its mnemonic and however
many operand tokens of whatever bytes it has, the line written for it decodes to it. -/
def Obligations.LineOfInstructionDecodesToIt : Prop :=
  ∀ i : Instr, WellFormed i = true → decodeLine opcodeTable i.toLine = .ok i

/-- Whatever a line decodes to is a well-formed instruction: its mnemonic is the one the ROM hits for the line's
first token, folded, and its operands are the tokens after it, in order. -/
def Obligations.DecodedInstructionsAreWellFormed : Prop :=
  ∀ (rom : List RomEntry) (line : Line) (i : Instr), decodeLine rom line = .ok i →
    WellFormed i = true ∧ ∃ t, tokenize line = t :: i.operands ∧ foldCase t = i.mnemonic.key

/-- The word decoder of R115 and the per-instruction encodings agree: a word decodes exactly when it is a table
word; the instruction it decodes to encodes to that word; and the word of any instruction decodes to an instruction
of the same mnemonic and the same word. That a word decodes ONLY when it is a table word is the model's choice (log
entry 1): R71 and R72 say of the others only that the block never produces them. -/
def Obligations.WordsDecodeAndEncodeAgree : Prop :=
  (∀ w, (∃ i, decodeWord w = .ok i) ↔ TableWord w) ∧
  (∀ w i, decodeWord w = .ok i → WellFormed i = true ∧ encode i = .ok w) ∧
  (∀ i w, encode i = .ok w →
    ∃ j, decodeWord w = .ok j ∧ j.mnemonic = i.mnemonic ∧ encode j = .ok w)

/-- The canonical instruction of any fields decodes from its own word: no field bit is dropped. On a block built with
any marker set (R7), in the spelling with any marker of it. The spelling is the model's choice (log entry 16). -/
def Obligations.CanonicalInstructionsDecodeFromTheirWord : Prop :=
  ∀ (markers : List Byte) (m : Byte) (rd rs rt : RegIndex) (imm : Imm16), m ∈ markers →
    (∀ c ∈ [Instr.add, Instr.sub, Instr.mul, Instr.or, Instr.and, Instr.xor],
      ∃ w, encodeWith markers (c [regToken m rd, regToken m rs, regToken m rt]) = .ok w ∧
        decodeWordWith m w = .ok (c [regToken m rd, regToken m rs, regToken m rt])) ∧
    (∀ c ∈ [Instr.addi, Instr.subi, Instr.muli, Instr.ori, Instr.andi, Instr.xori, Instr.ldw, Instr.stw, Instr.bz,
        Instr.beq],
      ∃ w, encodeWith markers (c [regToken m rt, regToken m rs, immToken imm]) = .ok w ∧
        decodeWordWith m w = .ok (c [regToken m rt, regToken m rs, immToken imm])) ∧
    (∃ w, encodeWith markers (.jr [regToken m rs]) = .ok w ∧ decodeWordWith m w = .ok (.jr [regToken m rs])) ∧
    (∃ w, encodeWith markers (.halt []) = .ok w ∧ decodeWordWith m w = .ok (.halt []))

/-! ## The front end -/

/-- R101: the tokens are the maximal runs of non-WS bytes, in order: each is non-empty and holds no WS byte; a
token by itself is one token; WS bytes alone are none; a run of WS bytes between two parts separates them; and a
line with no token gives UnknownOpcode. -/
def Obligations.TokensAreMaximalRunsOfNonSpaceBytes : Prop :=
  (∀ line, ∀ t ∈ tokenize line, t ≠ [] ∧ ∀ b ∈ t, isWs b = false) ∧
  (∀ t : Token, t ≠ [] → (∀ b ∈ t, isWs b = false) → tokenize t = [t]) ∧
  (∀ ws : Line, (∀ b ∈ ws, isWs b = true) → tokenize ws = []) ∧
  (∀ a ws b : Line, ws ≠ [] → (∀ c ∈ ws, isWs c = true) → tokenize (a ++ ws ++ b) = tokenize a ++ tokenize b) ∧
  (∀ line, tokenize line = [] → encodeLine line = .error .unknownOpcode)

/-- R75: the letter case of the mnemonic token does not matter: two lines that differ only in it are answered
alike. Only that token is folded: the instruction keeps the operand tokens as the line has them. -/
def Obligations.MnemonicLetterCaseIsIgnored : Prop :=
  (∀ (s : State) (l l' : Line) (t t' : Token) (ops : List Token),
    tokenize l = t :: ops → tokenize l' = t' :: ops → foldCase t = foldCase t' →
    ∃ u u', request l s = .next u ∧ request l' s = .next u' ∧ SameAnswer u.response u'.response) ∧
  (∀ (rom : List RomEntry) (l : Line) (i : Instr), decodeLine rom l = .ok i → i.operands = (tokenize l).tail)

/-- R74, R182: WS bytes around a line, a stray line terminator among them, change no answer. -/
def Obligations.SurroundingWhiteSpaceIsIgnored : Prop :=
  ∀ (s : State) (pre l post : Line), (∀ b ∈ pre, isWs b = true) → (∀ b ∈ post, isWs b = true) →
    ∃ u u', request (pre ++ l ++ post) s = .next u ∧ request l s = .next u' ∧ SameAnswer u.response u'.response

/-- A step runs the instruction the line decodes to: it is exec of it, at the same state; a line that decodes to
none is answered by the error the decoder names, and nothing but the output ports changes. -/
def Obligations.StepRunsTheDecodedInstruction : Prop :=
  (∀ (s : State) (i : Instr), decodeLine s.rom s.line = .ok i → step s = exec i s) ∧
  (∀ (s : State) (e : EncodeError), decodeLine s.rom s.line = .error e →
    ∃ t, step s = .next t ∧ t.Shows (.error e) ∧ s.SameInputs t)

/-! ## Operands -/

/-- R104, for any marker set (R7): an ill-shaped token gives MalformedOperands; a well-shaped one whose index
exceeds 31 gives InvalidRegister; any other gives its index, which never wraps. -/
def Obligations.RegisterTokensParseByShapeThenRange : Prop :=
  ∀ (markers : List Byte) (t : Token),
    (¬RegisterToken markers t → parseReg markers t = .error .malformedOperands) ∧
    (RegisterToken markers t → 31 < dec t.tail → parseReg markers t = .error .invalidRegister) ∧
    (RegisterToken markers t → dec t.tail ≤ 31 → ∃ r, parseReg markers t = .ok r ∧ r.toNat = dec t.tail)

/-- R105: an optionally signed run of digits gives its value mod 65536, whatever its size; anything else gives
MalformedOperands. -/
def Obligations.ImmediateTokensParseModulo65536 : Prop :=
  ∀ t : Token,
    (∀ v, ImmediateToken t v → ∃ imm, parseImm t = .ok imm ∧ (imm.toNat : Int) = v % 65536) ∧
    ((¬∃ v, ImmediateToken t v) → parseImm t = .error .malformedOperands)

/-- R106: the immediate reduction law, with the two's-complement pattern for -65536 to -1 and the value itself for
0 to 65535, and the eight values the rule lists. -/
def Obligations.ImmediateReductionLaw : Prop :=
  (∀ v : Int, ((low16 v).toNat : Int) = v % 65536) ∧
  (∀ v : Int, -65536 ≤ v → v ≤ -1 → low16 v = BitVec.ofInt 16 v ∧ ((low16 v).toNat : Int) = v + 65536) ∧
  (∀ v : Int, 0 ≤ v → v ≤ 65535 → ((low16 v).toNat : Int) = v) ∧
  low16 (-1) = 0xFFFF#16 ∧ low16 (-32768) = 0x8000#16 ∧ low16 32767 = 0x7FFF#16 ∧ low16 65535 = 0xFFFF#16 ∧
  low16 65536 = 0x0000#16 ∧ low16 65537 = 0x0001#16 ∧ low16 (-65536) = 0x0000#16 ∧ low16 (-65537) = 0xFFFF#16

/-- R107: which slot feeds which field in each format, with 0 in the fields the format does not use, for any marker
set (R7). -/
def Obligations.FieldRouterFollowsTheFormat : Prop :=
  ∀ (markers : List Byte) (ops : List Token) (r0 r1 r2 : RegIndex) (imm : Imm16),
    (parseReg markers (slot ops 0) = .ok r0 → parseReg markers (slot ops 1) = .ok r1 →
      parseReg markers (slot ops 2) = .ok r2 →
      route markers .rType ops = .ok { rs := r1, rt := r2, rd := r0, imm16 := 0#16 }) ∧
    (parseReg markers (slot ops 0) = .ok r0 → parseReg markers (slot ops 1) = .ok r1 →
      parseImm (slot ops 2) = .ok imm →
      route markers .iType ops = .ok { rs := r1, rt := r0, rd := 0#5, imm16 := imm }) ∧
    (parseReg markers (slot ops 0) = .ok r0 →
      route markers .jrType ops = .ok { rs := r0, rt := 0#5, rd := 0#5, imm16 := 0#16 }) ∧
    route markers .haltType ops = .ok { rs := 0#5, rt := 0#5, rd := 0#5, imm16 := 0#16 }

/-! ## The bit-packer and the renderer -/

/-- R62 to R66: where each format's fields stand in the packed word, and 0 in every bit it marks unused. -/
def Obligations.PackedFieldsStandAtTheirBits : Prop :=
  ∀ (op : Opcode) (f : Fields),
    (let w := pack .rType op f
     w.extractLsb' 26 6 = op ∧ w.extractLsb' 21 5 = f.rs ∧ w.extractLsb' 16 5 = f.rt ∧ w.extractLsb' 11 5 = f.rd ∧
      w.extractLsb' 0 11 = 0#11) ∧
    (let w := pack .iType op f
     w.extractLsb' 26 6 = op ∧ w.extractLsb' 21 5 = f.rs ∧ w.extractLsb' 16 5 = f.rt ∧
      w.extractLsb' 0 16 = f.imm16) ∧
    (let w := pack .jrType op f
     w.extractLsb' 26 6 = op ∧ w.extractLsb' 21 5 = f.rs ∧ w.extractLsb' 0 21 = 0#21) ∧
    (let w := pack .haltType op f
     w.extractLsb' 26 6 = op ∧ w.extractLsb' 0 26 = 0#26)

/-- R108: Pack is the concatenation the rule gives each format, and equally its shift-and-or arithmetic; and that
value is below 2^32 for any fields, which is why the check of R109 never fires. -/
def Obligations.PackAgreesWithItsArithmetic : Prop :=
  ∀ (op : Opcode) (f : Fields),
    (pack .rType op f = op ++ f.rs ++ f.rt ++ f.rd ++ 0b00000000000#11 ∧
      (pack .rType op f).toNat = op.toNat <<< 26 ||| f.rs.toNat <<< 21 ||| f.rt.toNat <<< 16 ||| f.rd.toNat <<< 11) ∧
    (pack .iType op f = op ++ f.rs ++ f.rt ++ f.imm16 ∧
      (pack .iType op f).toNat = op.toNat <<< 26 ||| f.rs.toNat <<< 21 ||| f.rt.toNat <<< 16 ||| f.imm16.toNat) ∧
    (pack .jrType op f = op ++ f.rs ++ 0b000000000000000000000#21 ∧
      (pack .jrType op f).toNat = op.toNat <<< 26 ||| f.rs.toNat <<< 21) ∧
    (pack .haltType op f = op ++ 0b00000000000000000000000000#26 ∧
      (pack .haltType op f).toNat = op.toNat <<< 26) ∧
    (∀ fmt, assembledValue fmt op f = (pack fmt op f).toNat ∧ assembledValue fmt op f < 2 ^ 32)

/-- R114: the field-mux form gives the same word as the packer for every format and every field values, the
fields a format does not use among them. -/
def Obligations.MuxFormGivesTheSameWord : Prop :=
  ∀ (fmt : Format) (op : Opcode) (f : Fields), packMux fmt op f = pack fmt op f

/-- R110: the rendering has 8 bytes, and byte i is the upper-case digit of nibble 31-4i to 28-4i. -/
def Obligations.HexRendersEachNibbleUpperCase : Prop :=
  ∀ w : Word, (renderHex w).length = 8 ∧
    ∀ i < 8, (renderHex w)[i]? =
      some (let n := w.toNat / 16 ^ (7 - i) % 16
            if n < 10 then BitVec.ofNat 8 (0x30 + n) else BitVec.ofNat 8 (0x41 + (n - 10)))

/-- The rendering loses nothing: two words with the same hex text are the same word; and it renders the word's
big-endian bytes (R42) two digits a byte. -/
def Obligations.HexDeterminesTheWord : Prop :=
  (∀ v w : Word, renderHex v = renderHex w → v = w) ∧
  (∀ w : Word, (wordBytes w).foldl (fun n b => 256 * n + b.toNat) 0 = w.toNat ∧
    renderHex w = (wordBytes w).flatMap fun b => [hexDigit (b.extractLsb' 4 4), hexDigit (b.extractLsb' 0 4)])

/-! ## The instructions: their words, their errors, their frame -/

/-- R130: each R-type instruction, on three register operands written `Rd Rs Rt`, completes with its word
`opcode.rs.rt.rd.0` and its hex text, ok 1 and err 0, and changes nothing but the output ports. -/
def Obligations.RTypeInstructionsAnswerTheirWord : Prop :=
  ∀ (s : State) (t0 t1 t2 : Token) (rd rs rt : RegIndex), s.RomLoaded →
    parseReg Config.regMarkers t0 = .ok rd → parseReg Config.regMarkers t1 = .ok rs →
    parseReg Config.regMarkers t2 = .ok rt →
    Answers (.add [t0, t1, t2]) s (.ok (0b000000#6 ++ rs ++ rt ++ rd ++ 0#11)) ∧
    Answers (.sub [t0, t1, t2]) s (.ok (0b000010#6 ++ rs ++ rt ++ rd ++ 0#11)) ∧
    Answers (.mul [t0, t1, t2]) s (.ok (0b000100#6 ++ rs ++ rt ++ rd ++ 0#11)) ∧
    Answers (.or [t0, t1, t2]) s (.ok (0b000110#6 ++ rs ++ rt ++ rd ++ 0#11)) ∧
    Answers (.and [t0, t1, t2]) s (.ok (0b001000#6 ++ rs ++ rt ++ rd ++ 0#11)) ∧
    Answers (.xor [t0, t1, t2]) s (.ok (0b001010#6 ++ rs ++ rt ++ rd ++ 0#11))

/-- R140: each I-type instruction, on two register operands and an immediate written `Rt Rs imm`, completes with
its word `opcode.rs.rt.imm16`, the immediate reduced mod 2^16 in the same way for all ten, and changes nothing but
the output ports. -/
def Obligations.ITypeInstructionsAnswerTheirWord : Prop :=
  ∀ (s : State) (t0 t1 t2 : Token) (rt rs : RegIndex) (v : Int), s.RomLoaded →
    parseReg Config.regMarkers t0 = .ok rt → parseReg Config.regMarkers t1 = .ok rs → ImmediateToken t2 v →
    Answers (.addi [t0, t1, t2]) s (.ok (0b000001#6 ++ rs ++ rt ++ BitVec.ofInt 16 v)) ∧
    Answers (.subi [t0, t1, t2]) s (.ok (0b000011#6 ++ rs ++ rt ++ BitVec.ofInt 16 v)) ∧
    Answers (.muli [t0, t1, t2]) s (.ok (0b000101#6 ++ rs ++ rt ++ BitVec.ofInt 16 v)) ∧
    Answers (.ori [t0, t1, t2]) s (.ok (0b000111#6 ++ rs ++ rt ++ BitVec.ofInt 16 v)) ∧
    Answers (.andi [t0, t1, t2]) s (.ok (0b001001#6 ++ rs ++ rt ++ BitVec.ofInt 16 v)) ∧
    Answers (.xori [t0, t1, t2]) s (.ok (0b001011#6 ++ rs ++ rt ++ BitVec.ofInt 16 v)) ∧
    Answers (.ldw [t0, t1, t2]) s (.ok (0b001100#6 ++ rs ++ rt ++ BitVec.ofInt 16 v)) ∧
    Answers (.stw [t0, t1, t2]) s (.ok (0b001101#6 ++ rs ++ rt ++ BitVec.ofInt 16 v)) ∧
    Answers (.bz [t0, t1, t2]) s (.ok (0b001110#6 ++ rs ++ rt ++ BitVec.ofInt 16 v)) ∧
    Answers (.beq [t0, t1, t2]) s (.ok (0b001111#6 ++ rs ++ rt ++ BitVec.ofInt 16 v))

/-- R160: JR on one register operand completes with `010000.rs.0`; on any other operands it completes with the
error the rule names; and a line whose first token is JR in any letter case runs it. -/
def Obligations.JrAnswersItsWordOrItsError : Prop :=
  ∀ (s : State), s.RomLoaded →
    (∀ (t : Token) (rs : RegIndex), parseReg Config.regMarkers t = .ok rs →
      Answers (.jr [t]) s (.ok (0b010000#6 ++ rs ++ 0#21))) ∧
    (∀ ops, ops.length ≠ 1 → Answers (.jr ops) s (.error .malformedOperands)) ∧
    (∀ t : Token, ¬RegisterToken Config.regMarkers t → Answers (.jr [t]) s (.error .malformedOperands)) ∧
    (∀ t : Token, RegisterToken Config.regMarkers t → 31 < dec t.tail →
      Answers (.jr [t]) s (.error .invalidRegister)) ∧
    (∀ m ops, tokenize s.line = m :: ops → foldCase m = ascii ['J', 'R'] → step s = exec (.jr ops) s)

/-- R165: HALT without operands completes with its one encoding 0x44000000, and with any operand it gives
MalformedOperands; either way the block is as before but for its output ports (R179: HALT has no effect on the
block); a line whose first token is HALT in any letter case runs it; and `HALT.` is no mnemonic. -/
def Obligations.HaltAnswersItsOneWord : Prop :=
  ∀ (s : State), s.RomLoaded →
    Answers (.halt []) s (.ok 0b01000100000000000000000000000000#32) ∧
    (∀ t ops, Answers (.halt (t :: ops)) s (.error .malformedOperands)) ∧
    (∀ m ops, tokenize s.line = m :: ops → foldCase m = ascii ['H', 'A', 'L', 'T'] → step s = exec (.halt ops) s) ∧
    ∃ t, request (ascii ['H', 'A', 'L', 'T', '.']) s = .next t ∧ t.Shows (.error .unknownOpcode)

/-- R103: NOPS of the four formats, and MalformedOperands whenever an instruction has more or fewer operand tokens
than its ROM entry's format takes, whatever the tokens hold. -/
def Obligations.OperandCountIsCheckedFirst : Prop :=
  (Format.rType.nops = 3 ∧ Format.iType.nops = 3 ∧ Format.jrType.nops = 1 ∧ Format.haltType.nops = 0) ∧
  ∀ (s : State) (e : RomEntry) (ops : List Token), s.RomLoaded → e ∈ opcodeTable → ops.length ≠ e.format.nops →
    Answers (Instr.ofMnemonic e.mnemonic ops) s (.error .malformedOperands)

/-- R131 to R136, R141 to R150, errors: with the operand count right, the first failing slot in the order 0, 1, 2
decides the error of every instruction, and where no slot fails the instruction is accepted. -/
def Obligations.FirstFailingSlotDecidesTheError : Prop :=
  ∀ (s : State) (e : RomEntry) (ops : List Token), s.RomLoaded → e ∈ opcodeTable → ops.length = e.format.nops →
    (∀ k err, SlotFails Config.regMarkers e.format ops k err → (∀ j < k, ∀ err', ¬SlotFails Config.regMarkers e.format ops j err') →
      Answers (Instr.ofMnemonic e.mnemonic ops) s (.error err)) ∧
    ((∀ k err, ¬SlotFails Config.regMarkers e.format ops k err) → ∃ w, Answers (Instr.ofMnemonic e.mnemonic ops) s (.ok w))

/-- The frame of every instruction and of every step: whatever the operands and whatever is answered, the ROM (R22)
and the caller's line are unchanged; the output ports are the only state written. No line the caller presents alters
the ROM. -/
def Obligations.OnlyTheOutputPortsChange : Prop :=
  (∀ (i : Instr) (s t : State), exec i s = .next t → s.SameInputs t) ∧
  (∀ (s t : State), step s = .next t → s.SameInputs t) ∧
  (∀ (l : Line) (s t : State), request l s = .next t → t.rom = s.rom)

/-- Each instruction's answer is the one its own rule gives (R131 to R136, R141 to R150, R160, R165), on any operand
tokens: the path through the ROM, the router and the packer agrees with the per-instruction encodings. -/
def Obligations.EveryInstructionFollowsItsOwnRule : Prop :=
  ∀ (i : Instr) (s : State), s.RomLoaded → Answers i s (encode i)

/-! ## The whole block -/

/-- R100: a step answers `encode(line)`: ok 1, err 0, the word and its rendering, or ok 0 and the error's code, with
nothing else changed. `encodeLine` is built from the per-instruction rules, the step from the ROM and the stages. -/
def Obligations.StepAnswersTheEncodingOfTheLine : Prop :=
  ∀ s : State, s.RomLoaded → ∃ t, step s = .next t ∧ t.Shows (encodeLine s.line) ∧ s.SameInputs t

/-- R27: after a step ok is 1 exactly when the line encodes, and then err is 0; ok is 0 exactly when it gives an
error, and then err is that error's code. -/
def Obligations.StatusPortsTellTheResult : Prop :=
  ∀ s t : State, s.RomLoaded → step s = .next t →
    (t.ok = true ↔ ∃ w, encodeLine s.line = .ok w) ∧ (t.ok = false ↔ ∃ e, encodeLine s.line = .error e) ∧
    (t.ok = true → t.err = 0#3) ∧ (∀ e, encodeLine s.line = .error e → t.err = errorCode e)

/-- R171: UnknownOpcode is reported exactly when the line has no token or its first token, folded, is not
one of the 18 mnemonics. -/
def Obligations.UnknownOpcodeExactlyWithoutAMnemonic : Prop :=
  ∀ s : State, s.RomLoaded → ∃ t, step s = .next t ∧
    (t.err = errorCode .unknownOpcode ↔
      ∀ m ops, tokenize s.line = m :: ops → ∀ e ∈ opcodeTable, e.mnemonic.key ≠ foldCase m)

/-- R111: which error a line with several faults reports: no token; no mnemonic; wrong count; then the first failing
slot; and InternalInvariantViolation never. -/
def Obligations.ErrorPriorityOfALine : Prop :=
  ∀ s : State, s.RomLoaded → ∃ t, step s = .next t ∧ t.err ≠ errorCode .internalInvariantViolation ∧
    (tokenize s.line = [] → t.Shows (.error .unknownOpcode)) ∧
    (∀ m ops, tokenize s.line = m :: ops →
      (romLookup opcodeTable (foldCase m) = none → t.Shows (.error .unknownOpcode)) ∧
      (∀ e, romLookup opcodeTable (foldCase m) = some e →
        (ops.length ≠ e.format.nops → t.Shows (.error .malformedOperands)) ∧
        (ops.length = e.format.nops → ∀ k err, SlotFails Config.regMarkers e.format ops k err →
          (∀ j < k, ∀ err', ¬SlotFails Config.regMarkers e.format ops j err') → t.Shows (.error err))))

/-- R174, R109, R175: no step and no instruction stops the machine, in any state whatever its ROM holds: the internal
check never fires, and err is never the code of InternalInvariantViolation. The same of a block built with any
parameters, on a line within its bound. -/
def Obligations.NothingStopsTheBlock : Prop :=
  (∀ (s : State), ∃ t, step s = .next t ∧ t.err ≠ errorCode .internalInvariantViolation) ∧
  (∀ (i : Instr) (s : State), ∃ t, exec i s = .next t ∧ t.err ≠ errorCode .internalInvariantViolation) ∧
  (∀ (p : Params) (s : State), lineFits p.maxLineBytes s.line = true →
    ∃ t, stepWith p s = .next t ∧ t.err ≠ errorCode .internalInvariantViolation)

/-- R115, R116, R69, R66: every word the block answers reads back, at the positions of the format its mnemonic's ROM
entry gives: that entry's opcode, the register indices parsed from the slots R78 gives the fields, the immediate's
value mod 65536, and 0 in every unused bit. The ROM is whatever the state holds: opcode and format come from nowhere
else. -/
def Obligations.AnsweredWordsReadBackTheirFields : Prop :=
  ∀ (s t : State), step s = .next t → t.ok = true →
    ∃ m ops e, tokenize s.line = m :: ops ∧ romLookup s.rom (foldCase m) = some e ∧
      ops.length = e.format.nops ∧ opField t.word = e.opcode ∧ unusedBitsZero e.format t.word = true ∧
      (e.format = .rType → parseReg Config.regMarkers (slot ops 0) = .ok (rdField t.word) ∧
        parseReg Config.regMarkers (slot ops 1) = .ok (rsField t.word) ∧
        parseReg Config.regMarkers (slot ops 2) = .ok (rtField t.word)) ∧
      (e.format = .iType → parseReg Config.regMarkers (slot ops 0) = .ok (rtField t.word) ∧
        parseReg Config.regMarkers (slot ops 1) = .ok (rsField t.word) ∧
        ∃ v, ImmediateToken (slot ops 2) v ∧ ((immField t.word).toNat : Int) = v % 65536) ∧
      (e.format = .jrType → parseReg Config.regMarkers (slot ops 0) = .ok (rsField t.word))

/-- R72: the words the block produces are exactly the words of the opcode table: an assigned opcode, the unused bits
0, the register and immediate fields free. -/
def Obligations.ProducedWordsAreExactlyTheTableWords : Prop :=
  ∀ w : Word, (∃ s t : State, s.RomLoaded ∧ step s = .next t ∧ t.ok = true ∧ t.word = w) ↔ TableWord w

/-- R71: no word with an opcode of 18 to 63 is ever produced. -/
def Obligations.UnassignedOpcodesAreNeverProduced : Prop :=
  ∀ s t : State, s.RomLoaded → step s = .next t → t.ok = true → (t.word.extractLsb' 26 6).toNat ≤ 17

/-- R70: the formats over the opcode map: even 0 to 10 R, odd 1 to 11 and 12 to 15 I, 16 JR, 17 Halt. -/
def Obligations.OpcodeMapGivesTheFormats : Prop :=
  ∀ e ∈ State.reset.rom,
    (e.format = .rType ↔ e.opcode.toNat ≤ 10 ∧ e.opcode.toNat % 2 = 0) ∧
    (e.format = .iType ↔ (e.opcode.toNat ≤ 11 ∧ e.opcode.toNat % 2 = 1) ∨
      (12 ≤ e.opcode.toNat ∧ e.opcode.toNat ≤ 15)) ∧
    (e.format = .jrType ↔ e.opcode.toNat = 16) ∧ (e.format = .haltType ↔ e.opcode.toNat = 17)

/-- R113: no constraint links the fields: for every mnemonic and every register indices and immediate, the line with
those operands is accepted with the word of those fields. -/
def Obligations.AnyFieldValuesEncodeTogether : Prop :=
  ∀ (s : State) (e : RomEntry) (f : Fields), s.RomLoaded → e ∈ opcodeTable →
    ∃ t, request (Instr.ofMnemonic e.mnemonic (canonicalOperands Config.canonicalMarker e.format f)).toLine s = .next t ∧
      t.Shows (.ok (pack e.format e.opcode f))

/-! ## Independence, invariants, parameters -/

/-- R45: an evaluation depends on the line and the ROM alone: two states (two instances, R181) with the same ROM and
line answer alike, whatever their ports showed, and change neither; and evaluating the same line again gives the same answer. -/
def Obligations.SameLineSameAnswer : Prop :=
  (∀ s s' : State, s.rom = s'.rom → s.line = s'.line →
    ∃ t t', step s = .next t ∧ step s' = .next t' ∧ SameAnswer t.response t'.response ∧
      s.SameInputs t ∧ s'.SameInputs t') ∧
  (∀ s t : State, step s = .next t → ∃ t', step t = .next t' ∧ SameAnswer t.response t'.response)

/-- R47: the answer to each of several requests served one after another is the one its line gets by itself, on the
same instance or on any other with the same ROM, whatever came before or comes after it: so in any order. -/
def Obligations.RequestsAreIndependent : Prop :=
  ∀ (ls : List Line) (s s' : State), s.rom = s'.rom → ∃ u rs, serve ls s = .next (u, rs) ∧
    List.Forall₂ (fun l r => ∃ t, request l s' = .next t ∧ SameAnswer t.response r) ls rs

/-- R48, R51: the reference caller's file holds, in the order of the lines, the rendering of each accepted line and
nothing for a rejected one. -/
def Obligations.OutputFileHoldsTheAcceptedLinesInOrder : Prop :=
  ∀ (ls : List Line) (s u : State) (rs : List Response), s.RomLoaded → serve ls s = .next (u, rs) →
    outputFile rs = (ls.filterMap fun l => (encodeLine l).toOption).map renderHex

/-- R51, R183, U14: for any newline bytes and character encoding, a run of the reference caller (log entry 12)
completes, and its file is, for the lines before the sentinel in order, the rendering of each accepted line followed by
the newline, and nothing for a rejected one; the sentinel and what follows it change neither the file nor the block. -/
def Obligations.CallerWritesNewlineTerminatedHexLines : Prop :=
  ∀ (fmt : FileFormat) (s : State), s.RomLoaded →
    (∀ ls, ∃ u, u.RomLoaded ∧ runCaller fmt ls s = .next (u,
      ((presentedLines ls).filterMap fun l => (encodeLine l).toOption).flatMap fun w =>
        (renderHex w).flatMap fmt.char ++ fmt.newline)) ∧
    (∀ pre q post, isSentinel q = true → (∀ l ∈ pre, isSentinel l = false) →
      presentedLines (pre ++ q :: post) = pre ∧ runCaller fmt (pre ++ q :: post) s = runCaller fmt pre s)

/-- The invariant holds at power-up. The reset line and ports are the model's (log entries 3 and 4). -/
def Obligations.ResetSatisfiesTheInvariant : Prop := State.reset.Inv

/-- The invariant is kept by every step and by the caller presenting any line: the ROM never changes, an accepted
line's ports show a table word with its rendering and no error, a rejected line's ports an error code 1 to 3. The same of the steps of a block built with any parameters (R7, R9). -/
def Obligations.StepAndCallerKeepTheInvariant : Prop :=
  ∀ s : State, s.Inv → (∀ t, step s = .next t → t.Inv) ∧ (∀ l, (s.present l).Inv) ∧
    (∀ (p : Params) (t : State), stepWith p s = .next t → t.Inv)

/-- The invariant over runs of requests: it holds after any lines presented to a state that meets it. -/
def Obligations.ServingKeepsTheInvariant : Prop :=
  ∀ (ls : List Line) (s u : State) (rs : List Response), s.Inv → serve ls s = .next (u, rs) → u.Inv

/-- R9, with D23: on a realisation with a finite MAX_LINE_BYTES a line within the bound is answered as the unbounded
block answers it, and a longer line stops the model under a fault of its own (log entry 8); for any marker set. -/
def Obligations.BoundedRealisationAgreesWithinItsBound : Prop :=
  ∀ (n : Nat) (s : State),
    (s.line.length ≤ n → stepWith { Config.params with maxLineBytes := some n } s = step s) ∧
    ∀ markers : List Byte,
      (s.line.length ≤ n → stepWith ⟨markers, some n⟩ s = stepWith ⟨markers, none⟩ s) ∧
      (n < s.line.length → stepWith ⟨markers, some n⟩ s = .fault .lineTooLong)

/-- R30: the nets between the stages agree with the ports, on a block built with any parameters (R7): the word net is
driven exactly on an accepted line, and is what the word port shows; and it is the packing of the opcode, format and
routed nets. `step` is the build `Config.params`. -/
def Obligations.NetsAgreeWithThePorts : Prop :=
  ∀ (p : Params) (s t : State), stepWith p s = .next t →
    let nets := evalNets p.regMarkers s.rom s.line
    (t.ok = true ↔ nets.word.isSome = true) ∧
    (∀ w, nets.word = some w → t.word = w ∧
      ∃ fmt op f, nets.fmt = some fmt ∧ nets.op = some op ∧ nets.routed = some f ∧ w = pack fmt op f)

/-- R7, R9: the block of `exec`, `step` and `encode` is the default build, with the one marker `R` and no line bound.
The defaults are the spec's (D9, D23; log entries 7 and 8). -/
def Obligations.TheModelIsTheDefaultBuild : Prop :=
  Config.params.regMarkers = ascii ['R'] ∧ Config.params.maxLineBytes = none ∧
  (∀ (i : Instr) (s : State), exec i s = execWith Config.params.regMarkers i s) ∧
  (∀ s : State, step s = stepWith Config.params s) ∧
  (∀ i : Instr, encode i = encodeWith Config.params.regMarkers i)

/-- R7, R100, U10: a block built with any marker set, and any line bound the line is within, answers each line by the
per-instruction rules under that marker set, by way of the instruction the line decodes to, and changes nothing but the
output ports. -/
def Obligations.EveryBuildAnswersTheEncodingOfTheLine : Prop :=
  (∀ (markers : List Byte) (i : Instr) (s : State), s.RomLoaded →
    ∃ t, execWith markers i s = .next t ∧ t.Shows (encodeWith markers i) ∧ s.SameInputs t) ∧
  (∀ (p : Params) (s : State), s.RomLoaded → lineFits p.maxLineBytes s.line = true →
    (∀ i, decodeLine s.rom s.line = .ok i → stepWith p s = execWith p.regMarkers i s) ∧
    ∃ t, stepWith p s = .next t ∧ t.Shows (encodeLineWith p.regMarkers s.line) ∧ s.SameInputs t)

/-- R7, R76: which markers a build accepts. A line whose registers are spelled with a marker of its set is accepted
with the word of its fields, for every mnemonic and every field values; one whose registers are spelled with any other
byte gives MalformedOperands. (A WS byte starts no token, so the spelling's marker is none.) -/
def Obligations.ExactlyTheBuildsMarkersAreAccepted : Prop :=
  ∀ (p : Params) (s : State) (m : Byte) (e : RomEntry) (f : Fields), s.RomLoaded → isWs m = false → e ∈ opcodeTable →
    let line := (Instr.ofMnemonic e.mnemonic (canonicalOperands m e.format f)).toLine
    lineFits p.maxLineBytes line = true →
    ∃ t, stepWith p (s.present line) = .next t ∧
      (m ∈ p.regMarkers → t.Shows (.ok (pack e.format e.opcode f))) ∧
      (m ∉ p.regMarkers → e.format ≠ .haltType → t.Shows (.error .malformedOperands))

/-- D9: a build with a larger marker set accepts every line a build with a smaller one accepts, with the same answer,
whatever the ROM holds. -/
def Obligations.WiderMarkerSetsKeepEveryAcceptance : Prop :=
  ∀ (p p' : Params) (s t : State), p.regMarkers ⊆ p'.regMarkers → lineFits p'.maxLineBytes s.line = true →
    stepWith p s = .next t → t.ok = true → stepWith p' s = .next t
end

