-- ==== Sys2Proof/Laws/Text.lean ====
section
/-! SUPPORT. Lemmas about text: decimal spelling and value, and the tokenizer on runs of bytes. -/

namespace Sys2Proof

/-! ## Decimal numbers -/

/-- One more digit multiplies the value by ten. -/
theorem dec_snoc (s : List Byte) (b : Byte) : dec (s ++ [b]) = 10 * dec s + digitValue b := by
  simp [dec]

theorem isDigit_digitByte {n : Nat} (h : n < 10) : isDigit (digitByte n) = true := by
  have : ∀ n < 10, isDigit (digitByte n) = true := by decide
  exact this n h

theorem digitValue_digitByte {n : Nat} (h : n < 10) : digitValue (digitByte n) = n := by
  have : ∀ n < 10, digitValue (digitByte n) = n := by decide
  exact this n h

theorem decimalUpTo_all_isDigit (k n : Nat) : (decimalUpTo k n).all isDigit = true := by
  induction k generalizing n with
  | zero => rfl
  | succ k ih =>
    rw [decimalUpTo]
    split
    · next h => simp [isDigit_digitByte h]
    · simp only [List.all_append, ih, List.all_cons, List.all_nil, Bool.true_and, Bool.and_true]
      exact isDigit_digitByte (Nat.mod_lt n (by decide))

theorem dec_decimalUpTo (k n : Nat) (h : n < 10 ^ k) : dec (decimalUpTo k n) = n := by
  induction k generalizing n with
  | zero => simp_all [decimalUpTo, dec]
  | succ k ih =>
    rw [decimalUpTo]
    split
    · next h10 => simp [dec, digitValue_digitByte h10]
    · have hk : n / 10 < 10 ^ k := by rw [Nat.div_lt_iff_lt_mul (by decide)]; rwa [← Nat.pow_succ]
      rw [dec_snoc, ih _ hk, digitValue_digitByte (Nat.mod_lt n (by decide))]
      omega

theorem decimal_ne_nil (n : Nat) : decimal n ≠ [] := by
  rw [decimal, decimalUpTo]
  split <;> simp

/-- A canonical spelling denotes the number it spells. -/
theorem dec_decimal {n : Nat} (h : n < 65536) : dec (decimal n) = n :=
  dec_decimalUpTo 5 n (Nat.lt_trans h (by decide))

/-- A canonical spelling is all digits. -/
theorem decimal_all_isDigit (n : Nat) : (decimal n).all isDigit = true := decimalUpTo_all_isDigit 5 n

/-- A digit is no separator. -/
theorem isWs_eq_false_of_isDigit {b : Byte} (h : isDigit b = true) : isWs b = false := by
  have : ∀ b : Byte, isDigit b = true → isWs b = false := by decide
  exact this b h

/-! ## The tokenizer -/

theorem isToken_iff {t : Token} : isToken t = true ↔ t ≠ [] ∧ ∀ b ∈ t, isWs b = false := by
  cases t <;> simp [isToken]

theorem splitRun_cons_ws {b : Byte} (h : isWs b = true) (l : Line) : splitRun (b :: l) = ([], tokenize l) := by
  simp [splitRun, tokenize, h]

theorem splitRun_cons_nonWs {b : Byte} (h : isWs b = false) (l : Line) :
    splitRun (b :: l) = (b :: (splitRun l).1, (splitRun l).2) := by
  simp [splitRun, h]

theorem tokenize_cons_ws {b : Byte} (h : isWs b = true) (l : Line) : tokenize (b :: l) = tokenize l := by
  rw [tokenize, splitRun_cons_ws h]
  rfl

/-- A run of non-WS bytes in front of a line joins the run the line starts with. -/
theorem splitRun_append {t : List Byte} (h : ∀ b ∈ t, isWs b = false) (l : Line) :
    splitRun (t ++ l) = (t ++ (splitRun l).1, (splitRun l).2) := by
  induction t with
  | nil => rfl
  | cons b t ih =>
    rw [List.cons_append, splitRun_cons_nonWs (h b (by simp)), ih fun c hc => h c (by simp [hc])]
    rfl

/-- A token, then a separator: the token comes off the front. -/
theorem tokenize_token_ws {t : Token} (ht : isToken t = true) {b : Byte} (hb : isWs b = true) (l : Line) :
    tokenize (t ++ b :: l) = t :: tokenize l := by
  obtain ⟨hne, hall⟩ := isToken_iff.mp ht
  rw [tokenize, splitRun_append hall, splitRun_cons_ws hb]
  simp [closeRun, hne]

/-- A token alone on a line is its only token. -/
theorem tokenize_token {t : Token} (ht : isToken t = true) : tokenize t = [t] := by
  obtain ⟨hne, hall⟩ := isToken_iff.mp ht
  have := splitRun_append hall []
  rw [List.append_nil] at this
  simp [tokenize, this, splitRun, closeRun, hne]

end Sys2Proof
end

