-- ==== Sys2Proof/Laws/Decode.lean ====
section
/-! SUPPORT. What the ROM lookup and the operand parsers can answer, and that canonical operand tokens parse back. -/

namespace Sys2Proof

/-- A hit is an entry of the ROM, under the key looked up. -/
theorem romLookup_some {rom : List RomEntry} {t : Token} {e : RomEntry} (h : romLookup rom t = some e) :
    e ∈ rom ∧ e.mnemonic.key = t :=
  ⟨List.mem_of_find?_eq_some h, by simpa using List.find?_some h⟩

/-- Looking a hit's own key up finds the same entry. -/
theorem romLookup_key {rom : List RomEntry} {t : Token} {e : RomEntry} (h : romLookup rom t = some e) :
    romLookup rom e.mnemonic.key = some e := by
  rw [(romLookup_some h).2, h]

/-- ParseReg answers in one of three ways (R104). -/
theorem parseReg_cases (markers : List Byte) (t : Token) :
    (regShaped markers t = false ∧ parseReg markers t = .error .malformedOperands) ∨
    (regShaped markers t = true ∧ 31 < dec t.tail ∧ parseReg markers t = .error .invalidRegister) ∨
    (regShaped markers t = true ∧ dec t.tail ≤ 31 ∧ parseReg markers t = .ok (BitVec.ofNat 5 (dec t.tail))) := by
  cases hs : regShaped markers t with
  | false => exact .inl ⟨rfl, by simp [parseReg, hs]⟩
  | true =>
    by_cases h : 31 < dec t.tail
    · exact .inr (.inl ⟨rfl, h, by simp [parseReg, hs, h]⟩)
    · exact .inr (.inr ⟨rfl, by omega, by simp [parseReg, hs, h]⟩)

/-- ParseImm answers in one of two ways (R105). -/
theorem parseImm_cases (t : Token) :
    (immShaped t = false ∧ parseImm t = .error .malformedOperands) ∨
    (immShaped t = true ∧ parseImm t = .ok (low16 (immValue t))) := by
  cases h : immShaped t <;> simp [parseImm, h]

/-- An operand parser raises no error but MalformedOperands and InvalidRegister. -/
theorem parseReg_error {markers : List Byte} {t : Token} {e : EncodeError} (h : parseReg markers t = .error e) :
    e = .malformedOperands ∨ e = .invalidRegister := by
  obtain ⟨-, hp⟩ | ⟨-, -, hp⟩ | ⟨-, -, hp⟩ := parseReg_cases markers t <;> rw [hp] at h <;> simp_all

theorem parseImm_error {t : Token} {e : EncodeError} (h : parseImm t = .error e) : e = .malformedOperands := by
  obtain ⟨-, hp⟩ | ⟨-, hp⟩ := parseImm_cases t <;> rw [hp] at h <;> simp_all

/-- `low_16(v)` as a number is `v mod 65536`. -/
theorem low16_toNat (v : Int) : ((low16 v).toNat : Int) = v % 65536 := by
  have h0 := Int.emod_nonneg v (show (65536 : Int) ≠ 0 by decide)
  have h1 := Int.emod_lt_of_pos v (show (0 : Int) < 65536 by decide)
  simp only [low16, BitVec.toNat_ofNat]
  omega

/-- A canonical register token has the shape of a register token exactly when its marker is in the set. -/
theorem regShaped_regToken (markers : List Byte) (m : Byte) (r : RegIndex) :
    regShaped markers (regToken m r) = markers.contains m := by
  simp only [regShaped, regToken, decimal_all_isDigit, Bool.and_true]
  have := decimal_ne_nil r.toNat
  cases h : decimal r.toNat <;> simp_all

/-- A canonical register token of a marker in the set parses to its register. -/
theorem parseReg_regToken {markers : List Byte} {m : Byte} (hm : m ∈ markers) (r : RegIndex) :
    parseReg markers (regToken m r) = .ok r := by
  have hr := r.isLt
  have hd : dec (regToken m r).tail = r.toNat := dec_decimal (by omega)
  have hs : regShaped markers (regToken m r) = true := by
    rw [regShaped_regToken]
    exact List.contains_iff_mem.mpr hm
  rw [parseReg, hs, hd, if_neg (by decide), if_neg (by omega), BitVec.ofNat_toNat, BitVec.setWidth_eq]

/-- A canonical register token of a marker outside the set is ill-shaped. -/
theorem parseReg_regToken_foreign {markers : List Byte} {m : Byte} (hm : m ∉ markers) (r : RegIndex) :
    parseReg markers (regToken m r) = .error .malformedOperands := by
  have hs : regShaped markers (regToken m r) = false := by
    rw [regShaped_regToken]
    simpa using hm
  rw [parseReg, hs]
  rfl

theorem canonicalMarker_mem : Config.canonicalMarker ∈ Config.regMarkers := by decide

/-- The sign stage leaves a digit string alone. -/
theorem splitSign_of_all_isDigit {s : List Byte} (h : s.all isDigit = true) : splitSign s = (false, s) := by
  cases s with
  | nil => rfl
  | cons c s =>
    have hc : isDigit c = true := by simp_all
    have hp : (c == 0x2B#8) = false := by
      have : ∀ c : Byte, isDigit c = true → (c == 0x2B#8) = false := by decide
      exact this c hc
    have hm : (c == 0x2D#8) = false := by
      have : ∀ c : Byte, isDigit c = true → (c == 0x2D#8) = false := by decide
      exact this c hc
    simp [splitSign, hp, hm]

/-- A canonical immediate token parses to its field. -/
theorem parseImm_immToken (imm : Imm16) : parseImm (immToken imm) = .ok imm := by
  have hd := decimal_all_isDigit imm.toNat
  have hs : splitSign (decimal imm.toNat) = (false, decimal imm.toNat) := splitSign_of_all_isDigit hd
  have hv : immValue (immToken imm) = (imm.toNat : Int) := by
    simp [immValue, immToken, hs, dec_decimal imm.isLt]
  have hsh : immShaped (immToken imm) = true := by
    simp only [immShaped, immToken, hs, hd, Bool.and_true]
    have := decimal_ne_nil imm.toNat
    cases h : decimal imm.toNat <;> simp_all
  rw [parseImm, if_pos hsh, hv]
  congr 1
  apply BitVec.eq_of_toNat_eq
  have := low16_toNat (imm.toNat : Int)
  have := imm.isLt
  omega

/-- Canonical operand tokens are tokens. -/
theorem isToken_regToken {m : Byte} (hm : isWs m = false) (r : RegIndex) : isToken (regToken m r) = true := by
  refine isToken_iff.mpr ⟨by simp [regToken], fun b hb => ?_⟩
  obtain rfl | hb := List.mem_cons.mp hb
  · exact hm
  · exact isWs_eq_false_of_isDigit (List.all_eq_true.mp (decimal_all_isDigit r.toNat) b hb)

theorem isToken_immToken (imm : Imm16) : isToken (immToken imm) = true :=
  isToken_iff.mpr ⟨decimal_ne_nil _, fun b hb =>
    isWs_eq_false_of_isDigit (List.all_eq_true.mp (decimal_all_isDigit imm.toNat) b hb)⟩

end Sys2Proof
end

