-- ==== Sys2Proof/Laws/Operands.lean ====
section
/-! SUPPORT. The shape checks of the operand parsers say what R76 and R77 word. -/

namespace Sys2Proof.Machine

theorem regShaped_iff (markers : List Byte) (t : Token) : regShaped markers t = true ↔ RegisterToken markers t := by
  cases t with
  | nil => simp [regShaped, RegisterToken]
  | cons m ds =>
    constructor
    · intro h
      simp only [regShaped, Bool.and_eq_true, List.contains_iff_mem, Bool.not_eq_true', List.isEmpty_eq_false_iff,
        List.all_eq_true] at h
      exact ⟨m, ds, rfl, h.1.1, h.1.2, h.2⟩
    · rintro ⟨m', ds', h, hm, hne, hd⟩
      cases h
      simp only [regShaped, Bool.and_eq_true, List.contains_iff_mem, Bool.not_eq_true', List.isEmpty_eq_false_iff,
        List.all_eq_true]
      exact ⟨⟨hm, hne⟩, hd⟩

theorem immShaped_iff (t : Token) (v : Int) : (immShaped t = true ∧ immValue t = v) ↔ ImmediateToken t v := by
  constructor
  · rintro ⟨h, rfl⟩
    cases t with
    | nil => simp [immShaped, splitSign] at h
    | cons c s =>
      by_cases hp : c = 0x2B#8
      · subst hp
        simp [immShaped, splitSign] at h
        exact ⟨s, h.1, h.2, .inr (.inl ⟨rfl, by simp [immValue, splitSign]⟩)⟩
      · by_cases hm : c = 0x2D#8
        · subst hm
          simp [immShaped, splitSign] at h
          exact ⟨s, h.1, h.2, .inr (.inr ⟨rfl, by simp [immValue, splitSign]⟩)⟩
        · simp [immShaped, splitSign, hp, hm] at h
          exact ⟨c :: s, by simp, by simpa using h, .inl ⟨rfl, by simp [immValue, splitSign, hp, hm]⟩⟩
  · rintro ⟨ds, hne, hd, ⟨rfl, rfl⟩ | ⟨rfl, rfl⟩ | ⟨rfl, rfl⟩⟩
    · have := splitSign_of_all_isDigit (List.all_eq_true.mpr hd)
      simpa [immShaped, immValue, this, hne] using hd
    · simpa [immShaped, immValue, splitSign, hne] using hd
    · simpa [immShaped, immValue, splitSign, hne] using hd

/-- A token that is no immediate token fails the shape check. -/
theorem immShaped_eq_false_iff (t : Token) : immShaped t = false ↔ ¬∃ v, ImmediateToken t v := by
  constructor
  · rintro h ⟨v, hv⟩
    have := ((immShaped_iff t v).mpr hv).1
    simp_all
  · intro h
    cases hs : immShaped t with
    | false => rfl
    | true => exact absurd ⟨_, (immShaped_iff t _).mp ⟨hs, rfl⟩⟩ h

end Sys2Proof.Machine
end

