-- ==== Sys2Proof/Laws/State.lean ====
section
/-! SUPPORT. Field lemmas of the two updates of State, `drive` and `present`. -/

namespace Sys2Proof.Machine

@[simp] theorem State.drive_rom (r : Except EncodeError Word) (s : State) : (s.drive r).rom = s.rom := rfl
@[simp] theorem State.drive_line (r : Except EncodeError Word) (s : State) : (s.drive r).line = s.line := rfl
@[simp] theorem State.drive_ok (r : Except EncodeError Word) (s : State) : (s.drive r).ok = okFlag r := rfl
@[simp] theorem State.drive_err (r : Except EncodeError Word) (s : State) : (s.drive r).err = errFlag r := rfl
@[simp] theorem State.drive_word (r : Except EncodeError Word) (s : State) : (s.drive r).word = wordPort r := rfl
@[simp] theorem State.drive_hex (r : Except EncodeError Word) (s : State) :
    (s.drive r).hex = renderHex (wordPort r) := rfl

@[simp] theorem State.present_rom (l : Line) (s : State) : (s.present l).rom = s.rom := rfl
@[simp] theorem State.present_line (l : Line) (s : State) : (s.present l).line = l := rfl
@[simp] theorem State.present_ok (l : Line) (s : State) : (s.present l).ok = s.ok := rfl
@[simp] theorem State.present_err (l : Line) (s : State) : (s.present l).err = s.err := rfl
@[simp] theorem State.present_word (l : Line) (s : State) : (s.present l).word = s.word := rfl
@[simp] theorem State.present_hex (l : Line) (s : State) : (s.present l).hex = s.hex := rfl

@[simp] theorem okFlag_ok (w : Word) : okFlag (.ok w) = true := rfl
@[simp] theorem okFlag_error (e : EncodeError) : okFlag (.error e) = false := rfl
@[simp] theorem errFlag_ok (w : Word) : errFlag (.ok w) = 0#3 := rfl
@[simp] theorem errFlag_error (e : EncodeError) : errFlag (.error e) = errorCode e := rfl
@[simp] theorem wordPort_ok (w : Word) : wordPort (.ok w) = w := rfl
@[simp] theorem wordPort_error (e : EncodeError) : wordPort (.error e) = 0x00000000#32 := rfl

/-- Driven ports show the result they were driven with. -/
theorem State.drive_shows (r : Except EncodeError Word) (s : State) : (s.drive r).Shows r := by
  cases r with
  | error e => exact ⟨rfl, rfl⟩
  | ok w => exact ⟨rfl, rfl, rfl, rfl⟩

/-- Driving the ports leaves the inputs alone. -/
theorem State.drive_sameInputs (r : Except EncodeError Word) (s : State) : s.SameInputs (s.drive r) := ⟨rfl, rfl⟩

/-- Driving twice is driving once: no port keeps history. -/
theorem State.drive_drive (r r' : Except EncodeError Word) (s : State) : (s.drive r).drive r' = s.drive r' := rfl

/-- The ports after driving do not depend on what they showed before. -/
theorem State.drive_response (r : Except EncodeError Word) (s s' : State) :
    (s.drive r).response = (s'.drive r).response := rfl

end Sys2Proof.Machine
end

