-- ==== Sys2Proof/Laws/Ops.lean ====
section
/-! SUPPORT. What each shared operation of the machine can do: one spec lemma per operation, and through it the
outcome of `exec` and `step`. -/

namespace Sys2Proof.Machine

/-- The assembled value never exceeds 32 bits (R109). -/
theorem assembledValue_lt (fmt : Format) (op : Opcode) (f : Fields) : assembledValue fmt op f < 2 ^ 32 := by
  have hop : op.toNat <<< 26 < 2 ^ 32 := by rw [Nat.shiftLeft_eq]; have := op.isLt; omega
  have hrs : f.rs.toNat <<< 21 < 2 ^ 32 := by rw [Nat.shiftLeft_eq]; have := f.rs.isLt; omega
  have hrt : f.rt.toNat <<< 16 < 2 ^ 32 := by rw [Nat.shiftLeft_eq]; have := f.rt.isLt; omega
  have hrd : f.rd.toNat <<< 11 < 2 ^ 32 := by rw [Nat.shiftLeft_eq]; have := f.rd.isLt; omega
  have him : f.imm16.toNat < 2 ^ 32 := by have := f.imm16.isLt; omega
  cases fmt with
  | rType => exact Nat.or_lt_two_pow (Nat.or_lt_two_pow (Nat.or_lt_two_pow hop hrs) hrt) hrd
  | iType => exact Nat.or_lt_two_pow (Nat.or_lt_two_pow (Nat.or_lt_two_pow hop hrs) hrt) him
  | jrType => exact Nat.or_lt_two_pow hop hrs
  | haltType => exact hop

/-- Concatenation as arithmetic. -/
theorem toNat_append_add {n m : Nat} (x : BitVec n) (y : BitVec m) :
    (x ++ y).toNat = x.toNat * 2 ^ m + y.toNat := by
  rw [BitVec.toNat_append, ← Nat.shiftLeft_add_eq_or_of_lt y.isLt, Nat.shiftLeft_eq]

/-- The packed word as a number, format by format (R62 to R65, R108). -/
theorem pack_rType_toNat (op : Opcode) (f : Fields) : (pack .rType op f).toNat =
    op.toNat * 2 ^ 26 + f.rs.toNat * 2 ^ 21 + f.rt.toNat * 2 ^ 16 + f.rd.toNat * 2 ^ 11 := by
  show (op ++ f.rs ++ f.rt ++ f.rd ++ 0#11 : BitVec (6 + 5 + 5 + 5 + 11)).toNat = _
  simp only [toNat_append_add, BitVec.toNat_ofNat]
  omega

theorem pack_iType_toNat (op : Opcode) (f : Fields) : (pack .iType op f).toNat =
    op.toNat * 2 ^ 26 + f.rs.toNat * 2 ^ 21 + f.rt.toNat * 2 ^ 16 + f.imm16.toNat := by
  show (op ++ f.rs ++ f.rt ++ f.imm16 : BitVec (6 + 5 + 5 + 16)).toNat = _
  simp only [toNat_append_add]
  omega

theorem pack_jrType_toNat (op : Opcode) (f : Fields) : (pack .jrType op f).toNat =
    op.toNat * 2 ^ 26 + f.rs.toNat * 2 ^ 21 := by
  show (op ++ f.rs ++ 0#21 : BitVec (6 + 5 + 21)).toNat = _
  simp only [toNat_append_add, BitVec.toNat_ofNat]
  omega

theorem pack_haltType_toNat (op : Opcode) (f : Fields) : (pack .haltType op f).toNat = op.toNat * 2 ^ 26 := by
  show (op ++ 0#26 : BitVec (6 + 26)).toNat = _
  simp only [toNat_append_add, BitVec.toNat_ofNat]
  omega

/-- The result the stages of R100 give one mnemonic: the first error met, or the packed word. -/
def resultAs (markers : List Byte) (rom : List RomEntry) (m : Mnemonic) (ops : List Token) :
    Except EncodeError Word :=
  (routeAs markers rom m ops).map fun p => pack p.1.format p.1.opcode p.2

/-- The encode operation always answers a next state: the ports driven with the result, nothing else changed. -/
theorem encodeAs_next (markers : List Byte) (m : Mnemonic) (ops : List Token) (s : State) :
    encodeAs markers m ops s = .next (s.drive (resultAs markers s.rom m ops)) := by
  unfold encodeAs resultAs
  cases routeAs markers s.rom m ops with
  | error e => rfl
  | ok p => exact if_pos (assembledValue_lt p.1.format p.1.opcode p.2)

/-- Every arm of `exec` is the encode operation of its own mnemonic, under the default marker set. -/
theorem exec_eq_execWith (i : Instr) (s : State) : exec i s = execWith Config.regMarkers i s := by
  cases i <;> rfl

/-- `execWith` answers the driven result. -/
theorem execWith_next (markers : List Byte) (i : Instr) (s : State) :
    execWith markers i s = .next (s.drive (resultAs markers s.rom i.mnemonic i.operands)) :=
  encodeAs_next markers i.mnemonic i.operands s

/-- `exec` answers the driven result. -/
theorem exec_next (i : Instr) (s : State) :
    exec i s = .next (s.drive (resultAs Config.regMarkers s.rom i.mnemonic i.operands)) := by
  rw [exec_eq_execWith, execWith_next]

/-- The result of a line on a ROM: the front end's error, or its instruction's result. -/
def resultOfLine (markers : List Byte) (rom : List RomEntry) (line : Line) : Except EncodeError Word :=
  (decodeLine rom line).bind fun i => resultAs markers rom i.mnemonic i.operands

/-- A step of a build answers the driven result of a line within its bound, and stops on a longer one. -/
theorem stepWith_cases (p : Params) (s : State) :
    (lineFits p.maxLineBytes s.line = true ∧
      stepWith p s = .next (s.drive (resultOfLine p.regMarkers s.rom s.line))) ∨
    (lineFits p.maxLineBytes s.line = false ∧ stepWith p s = .fault .lineTooLong) := by
  unfold stepWith evaluateWithin
  cases lineFits p.maxLineBytes s.line with
  | false => exact .inr ⟨rfl, rfl⟩
  | true =>
    refine .inl ⟨rfl, ?_⟩
    show evaluateWith _ s = _
    unfold evaluateWith resultOfLine
    cases decodeLine s.rom s.line with
    | error e => rfl
    | ok i => exact execWith_next _ i s

/-- `step` is the step of the default build. -/
theorem step_eq_stepWith (s : State) : step s = stepWith Config.params s := by
  have h : exec = execWith Config.regMarkers := by
    funext i s
    exact exec_eq_execWith i s
  rw [step, h]
  rfl

/-- A step answers the driven result of its line. -/
theorem step_next (s : State) :
    step s = .next (s.drive (resultOfLine Config.regMarkers s.rom s.line)) := by
  rw [step_eq_stepWith]
  obtain ⟨-, h⟩ | ⟨h, -⟩ := stepWith_cases Config.params s
  · exact h
  · cases h

/-- The opcode mux either hits an entry of the ROM or raises UnknownOpcode (R102). -/
theorem opcodeMux_cases (rom : List RomEntry) (t : Token) :
    (romLookup rom t = none ∧ opcodeMux rom t = .error .unknownOpcode) ∨
    (∃ e, romLookup rom t = some e ∧ opcodeMux rom t = .ok e) := by
  unfold opcodeMux
  cases romLookup rom t with
  | none => exact .inl ⟨rfl, rfl⟩
  | some e => exact .inr ⟨e, rfl, rfl⟩

/-- The field router raises no error but MalformedOperands and InvalidRegister. -/
theorem route_error {fmt : Format} {ops : List Token} {markers : List Byte} {e : EncodeError}
    (h : route markers fmt ops = .error e) : e = .malformedOperands ∨ e = .invalidRegister := by
  cases fmt with
  | rType =>
    simp only [route] at h
    cases h0 : parseReg markers (slot ops 0) with
    | error x => simp_all [Bind.bind, Except.bind]; exact parseReg_error h0
    | ok r0 =>
      cases h1 : parseReg markers (slot ops 1) with
      | error x => simp_all [Bind.bind, Except.bind]; exact parseReg_error h1
      | ok r1 =>
        cases h2 : parseReg markers (slot ops 2) with
        | error x => simp_all [Bind.bind, Except.bind]; exact parseReg_error h2
        | ok r2 => simp_all [Bind.bind, Except.bind, Pure.pure, Except.pure]
  | iType =>
    simp only [route] at h
    cases h0 : parseReg markers (slot ops 0) with
    | error x => simp_all [Bind.bind, Except.bind]; exact parseReg_error h0
    | ok r0 =>
      cases h1 : parseReg markers (slot ops 1) with
      | error x => simp_all [Bind.bind, Except.bind]; exact parseReg_error h1
      | ok r1 =>
        cases h2 : parseImm (slot ops 2) with
        | error x => simp_all [Bind.bind, Except.bind]; exact .inl (parseImm_error h2)
        | ok r2 => simp_all [Bind.bind, Except.bind, Pure.pure, Except.pure]
  | jrType =>
    simp only [route] at h
    cases h0 : parseReg markers (slot ops 0) with
    | error x => simp_all [Bind.bind, Except.bind]; exact parseReg_error h0
    | ok r0 => simp_all [Bind.bind, Except.bind, Pure.pure, Except.pure]
  | haltType => simp [route, Pure.pure, Except.pure] at h

/-- The stages up to the router, on a ROM hit: the count check, then the router. -/
theorem routeAs_of_hit {markers : List Byte} {rom : List RomEntry} {m : Mnemonic} {e : RomEntry}
    (h : romLookup rom m.key = some e) (ops : List Token) :
    routeAs markers rom m ops =
      if ops.length = e.format.nops then (route markers e.format ops).map fun f => (e, f)
      else .error .malformedOperands := by
  simp only [routeAs, opcodeMux, h, checkCount, Bind.bind, Except.bind, Pure.pure, Except.pure]
  by_cases hn : ops.length = e.format.nops
  · simp only [if_pos hn]
    cases route markers e.format ops <;> rfl
  · simp only [if_neg hn]

end Sys2Proof.Machine
end

