-- ==== Sys2Proof/Laws/PerInstr.lean ====
section
/-! SUPPORT. Facts about each instruction as syntax, one lemma per constructor of Instr. -/

namespace Sys2Proof.Laws

/-- The mnemonic of an instruction hits in the ROM, and the entry found is its own (R21, R23). -/
def RomRow.Statement (i : Instr) : Prop :=
  ∃ e, romLookup opcodeTable i.mnemonic.key = some e ∧ e ∈ opcodeTable ∧ e.mnemonic = i.mnemonic

/-- An instruction is its mnemonic and its operands, and its key is a token that folding leaves alone (R75). -/
def Spelling.Statement (i : Instr) : Prop :=
  Instr.ofMnemonic i.mnemonic i.operands = i ∧ isToken i.mnemonic.key = true ∧
    foldCase i.mnemonic.key = i.mnemonic.key

theorem RomRow.add (ops : List Token) : RomRow.Statement (.add ops) := ⟨⟨.add, 0#6, .rType⟩, rfl, by decide, rfl⟩
theorem RomRow.addi (ops : List Token) : RomRow.Statement (.addi ops) := ⟨⟨.addi, 1#6, .iType⟩, rfl, by decide, rfl⟩
theorem RomRow.sub (ops : List Token) : RomRow.Statement (.sub ops) := ⟨⟨.sub, 2#6, .rType⟩, rfl, by decide, rfl⟩
theorem RomRow.subi (ops : List Token) : RomRow.Statement (.subi ops) := ⟨⟨.subi, 3#6, .iType⟩, rfl, by decide, rfl⟩
theorem RomRow.mul (ops : List Token) : RomRow.Statement (.mul ops) := ⟨⟨.mul, 4#6, .rType⟩, rfl, by decide, rfl⟩
theorem RomRow.muli (ops : List Token) : RomRow.Statement (.muli ops) := ⟨⟨.muli, 5#6, .iType⟩, rfl, by decide, rfl⟩
theorem RomRow.or (ops : List Token) : RomRow.Statement (.or ops) := ⟨⟨.or, 6#6, .rType⟩, rfl, by decide, rfl⟩
theorem RomRow.ori (ops : List Token) : RomRow.Statement (.ori ops) := ⟨⟨.ori, 7#6, .iType⟩, rfl, by decide, rfl⟩
theorem RomRow.and (ops : List Token) : RomRow.Statement (.and ops) := ⟨⟨.and, 8#6, .rType⟩, rfl, by decide, rfl⟩
theorem RomRow.andi (ops : List Token) : RomRow.Statement (.andi ops) := ⟨⟨.andi, 9#6, .iType⟩, rfl, by decide, rfl⟩
theorem RomRow.xor (ops : List Token) : RomRow.Statement (.xor ops) := ⟨⟨.xor, 10#6, .rType⟩, rfl, by decide, rfl⟩
theorem RomRow.xori (ops : List Token) : RomRow.Statement (.xori ops) := ⟨⟨.xori, 11#6, .iType⟩, rfl, by decide, rfl⟩
theorem RomRow.ldw (ops : List Token) : RomRow.Statement (.ldw ops) := ⟨⟨.ldw, 12#6, .iType⟩, rfl, by decide, rfl⟩
theorem RomRow.stw (ops : List Token) : RomRow.Statement (.stw ops) := ⟨⟨.stw, 13#6, .iType⟩, rfl, by decide, rfl⟩
theorem RomRow.bz (ops : List Token) : RomRow.Statement (.bz ops) := ⟨⟨.bz, 14#6, .iType⟩, rfl, by decide, rfl⟩
theorem RomRow.beq (ops : List Token) : RomRow.Statement (.beq ops) := ⟨⟨.beq, 15#6, .iType⟩, rfl, by decide, rfl⟩
theorem RomRow.jr (ops : List Token) : RomRow.Statement (.jr ops) := ⟨⟨.jr, 16#6, .jrType⟩, rfl, by decide, rfl⟩
theorem RomRow.halt (ops : List Token) : RomRow.Statement (.halt ops) := ⟨⟨.halt, 17#6, .haltType⟩, rfl, by decide, rfl⟩

theorem Spelling.add (ops : List Token) : Spelling.Statement (.add ops) := ⟨rfl, rfl, rfl⟩
theorem Spelling.addi (ops : List Token) : Spelling.Statement (.addi ops) := ⟨rfl, rfl, rfl⟩
theorem Spelling.sub (ops : List Token) : Spelling.Statement (.sub ops) := ⟨rfl, rfl, rfl⟩
theorem Spelling.subi (ops : List Token) : Spelling.Statement (.subi ops) := ⟨rfl, rfl, rfl⟩
theorem Spelling.mul (ops : List Token) : Spelling.Statement (.mul ops) := ⟨rfl, rfl, rfl⟩
theorem Spelling.muli (ops : List Token) : Spelling.Statement (.muli ops) := ⟨rfl, rfl, rfl⟩
theorem Spelling.or (ops : List Token) : Spelling.Statement (.or ops) := ⟨rfl, rfl, rfl⟩
theorem Spelling.ori (ops : List Token) : Spelling.Statement (.ori ops) := ⟨rfl, rfl, rfl⟩
theorem Spelling.and (ops : List Token) : Spelling.Statement (.and ops) := ⟨rfl, rfl, rfl⟩
theorem Spelling.andi (ops : List Token) : Spelling.Statement (.andi ops) := ⟨rfl, rfl, rfl⟩
theorem Spelling.xor (ops : List Token) : Spelling.Statement (.xor ops) := ⟨rfl, rfl, rfl⟩
theorem Spelling.xori (ops : List Token) : Spelling.Statement (.xori ops) := ⟨rfl, rfl, rfl⟩
theorem Spelling.ldw (ops : List Token) : Spelling.Statement (.ldw ops) := ⟨rfl, rfl, rfl⟩
theorem Spelling.stw (ops : List Token) : Spelling.Statement (.stw ops) := ⟨rfl, rfl, rfl⟩
theorem Spelling.bz (ops : List Token) : Spelling.Statement (.bz ops) := ⟨rfl, rfl, rfl⟩
theorem Spelling.beq (ops : List Token) : Spelling.Statement (.beq ops) := ⟨rfl, rfl, rfl⟩
theorem Spelling.jr (ops : List Token) : Spelling.Statement (.jr ops) := ⟨rfl, rfl, rfl⟩
theorem Spelling.halt (ops : List Token) : Spelling.Statement (.halt ops) := ⟨rfl, rfl, rfl⟩

end Sys2Proof.Laws
end

