-- ==== Sys2Proof/Tests/Slice0.lean ====
section
/-! SUPPORT. Tests. Expected results are the spec's own: the vectors of 95_test_vectors.md and words written out from
the encodings of 41 to 44. Then one witness for the hypotheses of each statement. -/

namespace Sys2Proof.Tests

open Sys2Proof.Machine

/-- The bytes of a text. -/
def str (s : String) : List Byte := ascii s.toList

/-- What the block at power-up answers to a line. -/
def answer (l : Line) : Option Response :=
  match request l State.reset with
  | .next t => some t.response
  | _ => none

/-- The line is accepted with this word and this hex text. -/
def accepts (v : String × Nat × String) : Bool :=
  answer (str v.1) = some { ok := true, err := 0#3, word := BitVec.ofNat 32 v.2.1, hex := str v.2.2 }

/-- The line is rejected with this error (`word` and `hex` are not read). -/
def rejects (v : String × EncodeError) : Bool :=
  (answer (str v.1)).map (fun r => (r.ok, r.err)) = some (false, errorCode v.2)

/-! ## The vectors of 95_test_vectors.md -/

/-- L2-1, accepted lines. -/
theorem test_L2_1_accepted : [
    ("HALT", 0x44000000, "44000000"),
    ("halt", 0x44000000, "44000000"),
    ("HaLt", 0x44000000, "44000000"),
    ("  HALT", 0x44000000, "44000000"),
    ("HALT   ", 0x44000000, "44000000"),
    ("\tHALT\t", 0x44000000, "44000000"),
    ("HALT\r", 0x44000000, "44000000"),
    ("ADD\tR3  R1\x0bR2", 0x00221800, "00221800")].all accepts = true := by decide

/-- L2-1, rejected lines. -/
theorem test_L2_1_rejected : [
    ("", .unknownOpcode),
    ("   ", .unknownOpcode),
    ("\x1cHALT", .unknownOpcode),
    ("HALT.", .unknownOpcode),
    ("ADD, R3 R1 R2", .unknownOpcode),
    ("ADD R3, R1, R2", .malformedOperands),
    ("q", .unknownOpcode),
    ("QUIT", .unknownOpcode),
    ("NOP", .unknownOpcode),
    ("ADDU R1 R2 R3", .unknownOpcode),
    ("\xc4DD R1 R2 R3", .unknownOpcode),
    ("HALT # stop", .malformedOperands)].all rejects = true := by decide

/-- L2-2, accepted lines. -/
theorem test_L2_2_accepted_a : [
    ("ADD R3 R1 R2", 0x00221800, "00221800"),
    ("ADD R31 R31 R31", 0x03FFF800, "03FFF800"),
    ("ADD R0 R0 R0", 0x00000000, "00000000"),
    ("SUB R3 R1 R2", 0x08221800, "08221800"),
    ("SUB R31 R31 R31", 0x0BFFF800, "0BFFF800"),
    ("SUB R0 R0 R0", 0x08000000, "08000000"),
    ("MUL R3 R1 R2", 0x10221800, "10221800"),
    ("MUL R31 R31 R31", 0x13FFF800, "13FFF800"),
    ("MUL R0 R0 R0", 0x10000000, "10000000"),
    ("OR R3 R1 R2", 0x18221800, "18221800"),
    ("OR R31 R31 R31", 0x1BFFF800, "1BFFF800"),
    ("OR R0 R0 R0", 0x18000000, "18000000")].all accepts = true := by decide

/-- L2-2, accepted lines. -/
theorem test_L2_2_accepted_b : [
    ("AND R3 R1 R2", 0x20221800, "20221800"),
    ("AND R31 R31 R31", 0x23FFF800, "23FFF800"),
    ("AND R0 R0 R0", 0x20000000, "20000000"),
    ("XOR R3 R1 R2", 0x28221800, "28221800"),
    ("XOR R31 R31 R31", 0x2BFFF800, "2BFFF800"),
    ("XOR R0 R0 R0", 0x28000000, "28000000"),
    ("ADD R1 R1 R1", 0x00210800, "00210800"),
    ("ADD R31 R0 R0", 0x0000F800, "0000F800"),
    ("ADD R0 R31 R0", 0x03E00000, "03E00000"),
    ("ADD R0 R0 R31", 0x001F0000, "001F0000"),
    ("ADD R07 R001 R2", 0x00223800, "00223800")].all accepts = true := by decide

/-- L2-2, rejected lines. -/
theorem test_L2_2_rejected : [
    ("ADD R32 R1 R2", .invalidRegister),
    ("ADD R3 R1 R32", .invalidRegister),
    ("ADD R3 R1 R99999999999", .invalidRegister),
    ("ADD R3 R1", .malformedOperands),
    ("ADD R3 R1 R2 R4", .malformedOperands),
    ("ADD R3 R1 5", .malformedOperands),
    ("ADD r3 R1 R2", .malformedOperands),
    ("ADD R R1 R2", .malformedOperands),
    ("ADD R-1 R1 R2", .malformedOperands),
    ("ADD R+1 R1 R2", .malformedOperands),
    ("ADD R1a R1 R2", .malformedOperands),
    ("ADD R32 X1 R2", .invalidRegister),
    ("ADD X1 R32 R2", .malformedOperands),
    ("ADD R99 R1", .malformedOperands)].all rejects = true := by decide

/-- L2-3, accepted lines. -/
theorem test_L2_3_accepted_a : [
    ("ADDI R1 R2 100", 0x04410064, "04410064"),
    ("SUBI R1 R2 100", 0x0C410064, "0C410064"),
    ("MULI R1 R2 100", 0x14410064, "14410064"),
    ("ORI R1 R2 100", 0x1C410064, "1C410064"),
    ("ANDI R1 R2 100", 0x24410064, "24410064"),
    ("XORI R1 R2 100", 0x2C410064, "2C410064"),
    ("LDW R1 R2 100", 0x30410064, "30410064"),
    ("STW R1 R2 100", 0x34410064, "34410064"),
    ("BZ R1 R2 100", 0x38410064, "38410064"),
    ("BEQ R1 R2 100", 0x3C410064, "3C410064"),
    ("ADDI R1 R0 0", 0x04010000, "04010000"),
    ("ADDI R1 R0 1", 0x04010001, "04010001")].all accepts = true := by decide

/-- L2-3, accepted lines. -/
theorem test_L2_3_accepted_b : [
    ("ADDI R1 R0 -1", 0x0401FFFF, "0401FFFF"),
    ("ADDI R1 R0 32767", 0x04017FFF, "04017FFF"),
    ("ADDI R1 R0 -32768", 0x04018000, "04018000"),
    ("ADDI R1 R0 32768", 0x04018000, "04018000"),
    ("ADDI R1 R0 65535", 0x0401FFFF, "0401FFFF"),
    ("ADDI R1 R0 65536", 0x04010000, "04010000"),
    ("ADDI R1 R0 65537", 0x04010001, "04010001"),
    ("ADDI R1 R0 -65536", 0x04010000, "04010000"),
    ("ADDI R1 R0 -65537", 0x0401FFFF, "0401FFFF"),
    ("ADDI R1 R0 +7", 0x04010007, "04010007"),
    ("ADDI R1 R0 -0", 0x04010000, "04010000"),
    ("ADDI R1 R0 007", 0x04010007, "04010007")].all accepts = true := by decide

/-- L2-3, accepted lines. -/
theorem test_L2_3_accepted_c : [
    ("ADDI R1 R0 1000000", 0x04014240, "04014240"),
    ("ADDI R1 R0 -1000000", 0x0401BDC0, "0401BDC0"),
    ("ADDI R1 R0 123456789012345678901234567890", 0x04010AD2, "04010AD2"),
    ("ADDI R31 R31 65535", 0x07FFFFFF, "07FFFFFF"),
    ("BZ R1 R0 5", 0x38010005, "38010005"),
    ("BEQ R1 R2 -4", 0x3C41FFFC, "3C41FFFC"),
    ("BEQ R2 R1 -4", 0x3C22FFFC, "3C22FFFC"),
    ("LDW R7 R6 4", 0x30C70004, "30C70004"),
    ("LDW R7 R6 3", 0x30C70003, "30C70003"),
    ("STW R7 R6 -8", 0x34C7FFF8, "34C7FFF8"),
    ("ldw R1 R2 0", 0x30410000, "30410000")].all accepts = true := by decide

/-- L2-3, rejected lines. -/
theorem test_L2_3_rejected : [
    ("ADDI R1 R0", .malformedOperands),
    ("ADDI R1 R0 5 6", .malformedOperands),
    ("ADDI R1 R0 R2", .malformedOperands),
    ("ADDI R1 R0 0x10", .malformedOperands),
    ("ADDI R1 R0 1e3", .malformedOperands),
    ("ADDI R1 R0 --5", .malformedOperands),
    ("ADDI R1 R0 -", .malformedOperands),
    ("ADDI R1 R0 +", .malformedOperands),
    ("ADDI R1 R0 5,", .malformedOperands),
    ("ADDI R1 R32 0", .invalidRegister),
    ("ADDI R32 R1 0x10", .invalidRegister),
    ("ADDI X1 R32 5", .malformedOperands),
    ("ADDI R1 R2 X", .malformedOperands),
    ("BZ R1 5", .malformedOperands)].all rejects = true := by decide

/-- L2-4, accepted lines. -/
theorem test_L2_4_accepted : [
    ("JR R0", 0x40000000, "40000000"),
    ("JR R5", 0x40A00000, "40A00000"),
    ("JR R31", 0x43E00000, "43E00000"),
    ("jr R31", 0x43E00000, "43E00000")].all accepts = true := by decide

/-- L2-4, rejected lines. -/
theorem test_L2_4_rejected : [
    ("JR R32", .invalidRegister),
    ("JR", .malformedOperands),
    ("JR R5 R6", .malformedOperands),
    ("JR 5", .malformedOperands),
    ("JR r5", .malformedOperands),
    ("JR R5 0", .malformedOperands)].all rejects = true := by decide

/-- L2-5, accepted lines. -/
theorem test_L2_5_accepted : [
    ("HALT", 0x44000000, "44000000"),
    ("Halt", 0x44000000, "44000000")].all accepts = true := by decide

/-- L2-5, rejected lines. -/
theorem test_L2_5_rejected : [
    ("HALT R0", .malformedOperands),
    ("HALT 0", .malformedOperands),
    ("HALTS", .unknownOpcode)].all rejects = true := by decide

/-- L2-6: the packer ignores the fields its format does not use. -/
theorem test_L2_6_packer :
    pack .rType 0 { rs := 1, rt := 2, rd := 3, imm16 := 0xFFFF } = 0x00221800#32 ∧
    pack .rType 10 { rs := 31, rt := 31, rd := 31, imm16 := 0x1234 } = 0x2BFFF800#32 ∧
    pack .iType 1 { rs := 0, rt := 1, rd := 31, imm16 := 0x03E8 } = 0x040103E8#32 ∧
    pack .iType 15 { rs := 31, rt := 31, rd := 0, imm16 := 0xFFFF } = 0x3FFFFFFF#32 ∧
    pack .jrType 16 { rs := 5, rt := 31, rd := 31, imm16 := 0xFFFF } = 0x40A00000#32 ∧
    pack .haltType 17 { rs := 31, rt := 31, rd := 31, imm16 := 0xFFFF } = 0x44000000#32 := by decide

/-- L2-7: the renderer. -/
theorem test_L2_7_renderer :
    renderHex 0x00000000 = str "00000000" ∧ renderHex 0x0000000A = str "0000000A" ∧
    renderHex 0x040103E8 = str "040103E8" ∧ renderHex 0x3FFFFFFF = str "3FFFFFFF" ∧
    renderHex 0xABCDEF01 = str "ABCDEF01" := by decide

/-- L1-1, L1-5: the source's ADDI examples, with the hex literal of 90_conflicts.md C1. -/
theorem test_L1_addi : [("ADDI R1 R0 1000", 0x040103E8, "040103E8"), ("ADDI R1 R0 -1", 0x0401FFFF, "0401FFFF")].all
    accepts = true := by decide

/-- R112: what the block drives on a rejected line. No statement reads it. -/
theorem test_failure_ports : answer (str "ADD R31 R31 R32") =
    some { ok := false, err := 3#3, word := 0x00000000#32, hex := str "00000000" } := by decide

/-- R42: the bytes of a word, big-endian. -/
theorem test_word_bytes : wordBytes 0x040103E8#32 = [0x04, 0x01, 0x03, 0xE8] := by decide

/-- R80, R183: the sentinel is the caller's. -/
theorem test_sentinel : isSentinel (str " Quit") = true ∧ isSentinel (str "q") = true ∧
    isSentinel (str "q R1") = false ∧ presentedLines [str "HALT", str "Q", str "HALT"] = [str "HALT"] := by decide

/-- R51: the file of two accepted lines and a rejected one, stopped by the sentinel, with CR LF newlines and with LF
newlines in a two-byte encoding (95_test_vectors.md gives the words; the bytes follow by hand from R51). -/
theorem test_output_bytes :
    (match runCaller ⟨[0x0D, 0x0A], fun c => [c]⟩ [str "JR R5", str "NOP", str "HALT", str "q", str "HALT"]
        State.reset with
      | .next (_, bytes) => some bytes
      | _ => none) = some (str "40A00000\r\n44000000\r\n") ∧
    fileLine ⟨[0x0A, 0x00], fun c => [c, 0x00]⟩ (str "4A") = [0x34, 0x00, 0x41, 0x00, 0x0A, 0x00] := by decide

/-- R30: `hit` and `nops_ok` where their stages are reached, and where they are not (log entry 11). -/
theorem test_nets_reached :
    let nets := fun s => evalNets Config.regMarkers opcodeTable (str s)
    ((nets "JR R5").hit, (nets "JR R5").nopsOk) = (some true, some true) ∧
    ((nets "JR").hit, (nets "JR").nopsOk) = (some true, some false) ∧
    ((nets "NOP").hit, (nets "NOP").nopsOk) = (some false, none) ∧
    ((nets " ").hit, (nets " ").nopsOk) = (none, none) := by decide

/-- R30: nets of an accepted line and of one rejected at slot 1. -/
theorem test_nets :
    (evalNets Config.regMarkers opcodeTable (str "ADDI R1 R2 -1")).reg = [some 1, some 2, none] ∧
    (evalNets Config.regMarkers opcodeTable (str "ADDI R1 R2 -1")).imm = some 0xFFFF ∧
    (evalNets Config.regMarkers opcodeTable (str "JR R5")).routed = some { rs := 5, rt := 0, rd := 0, imm16 := 0 } ∧
    (evalNets Config.regMarkers opcodeTable (str "ADD R3 X1 R2")).word = none := by decide

/-- R7, R76: a block built with the markers `$` and `r` takes them and not `R`; one built
with none takes no register token. Expected answers by hand from R76, R62, R64, R65. -/
theorem test_other_markers :
    encodeLineWith (str "$r") (str "JR $5") = .ok 0x40A00000 ∧
    encodeLineWith (str "$r") (str "add r3 $1 r2") = .ok 0x00221800 ∧
    encodeLineWith (str "$r") (str "JR R5") = .error .malformedOperands ∧
    encodeLineWith (str "$r") (str "JR $32") = .error .invalidRegister ∧
    encodeLineWith [] (str "HALT") = .ok 0x44000000 ∧
    (match stepWith { Config.params with regMarkers := str "$r" } (State.reset.present (str "JR $5")) with
      | .next t => some t.response
      | _ => none) = some { ok := true, err := 0#3, word := 0x40A00000#32, hex := str "40A00000" } := by decide

/-! ## Decoding: words written out bit by bit from the spec's encodings -/

/-- R-type words of 41_r_type.md, `MN R3 R1 R2`: opcode, rs = 1, rt = 2, rd = 3, zeros. -/
theorem test_decode_rType_words :
    decodeWord 0b00000000001000100001100000000000 = .ok (.add [str "R3", str "R1", str "R2"]) ∧
    decodeWord 0b00001000001000100001100000000000 = .ok (.sub [str "R3", str "R1", str "R2"]) ∧
    decodeWord 0b00010000001000100001100000000000 = .ok (.mul [str "R3", str "R1", str "R2"]) ∧
    decodeWord 0b00011000001000100001100000000000 = .ok (.or [str "R3", str "R1", str "R2"]) ∧
    decodeWord 0b00100000001000100001100000000000 = .ok (.and [str "R3", str "R1", str "R2"]) ∧
    decodeWord 0b00101000001000100001100000000000 = .ok (.xor [str "R3", str "R1", str "R2"]) := by decide

/-- I-type words of 42_i_type.md, `MN R1 R2 100`: opcode, rs = 2, rt = 1, imm = 100. -/
theorem test_decode_iType_words :
    decodeWord 0b00000100010000010000000001100100 = .ok (.addi [str "R1", str "R2", str "100"]) ∧
    decodeWord 0b00001100010000010000000001100100 = .ok (.subi [str "R1", str "R2", str "100"]) ∧
    decodeWord 0b00010100010000010000000001100100 = .ok (.muli [str "R1", str "R2", str "100"]) ∧
    decodeWord 0b00011100010000010000000001100100 = .ok (.ori [str "R1", str "R2", str "100"]) ∧
    decodeWord 0b00100100010000010000000001100100 = .ok (.andi [str "R1", str "R2", str "100"]) ∧
    decodeWord 0b00101100010000010000000001100100 = .ok (.xori [str "R1", str "R2", str "100"]) ∧
    decodeWord 0b00110000010000010000000001100100 = .ok (.ldw [str "R1", str "R2", str "100"]) ∧
    decodeWord 0b00110100010000010000000001100100 = .ok (.stw [str "R1", str "R2", str "100"]) ∧
    decodeWord 0b00111000010000010000000001100100 = .ok (.bz [str "R1", str "R2", str "100"]) ∧
    decodeWord 0b00111100010000010000000001100100 = .ok (.beq [str "R1", str "R2", str "100"]) := by decide

/-- JR and HALT words of 43_jr_type.md and 44_halt_type.md, and words no line gives (R71, R66). -/
theorem test_decode_other_words :
    decodeWord 0b01000000101000000000000000000000 = .ok (.jr [str "R5"]) ∧
    decodeWord 0b01000100000000000000000000000000 = .ok (.halt []) ∧
    decodeWord 0b01001000000000000000000000000000 = .error .unassignedOpcode ∧
    decodeWord 0b00000000000000000000010000000000 = .error .unusedBitsSet := by decide

/-- The table word of `ADD R3 R1 R2`, presented by the host, is encoded by the next step. -/
theorem test_withFetchWord : decodeTableWord 32 0x00221800 = some (.add [str "R3", str "R1", str "R2"]) ∧
    (State.reset.withFetchWord 32 0x00221800).line = str "ADD R3 R1 R2" ∧
    answer (tableWordLine 32 0x00221800) =
      some { ok := true, err := 0#3, word := 0x00221800#32, hex := str "00221800" } := by decide

/-! ## Well-formedness refuses -/

theorem test_wellFormed_refuses_empty_token : WellFormed (.add [str "R1", [], str "R2"]) = false := by decide
theorem test_wellFormed_refuses_space_in_token : WellFormed (.jr [str "R1 R2"]) = false := by decide
theorem test_wellFormed_admits_any_token : WellFormed (.halt [str "#", str "R99", str "0x1"]) = true := by decide

/-! ## Witnesses: each statement's hypotheses can be met, clause by clause, at the ends of their ranges -/

/-- The block at power-up with a line presented. -/
def given (s : String) : State := State.reset.present (str s)

/-- A step from it, as the shared step lemma gives it. -/
def stepped (s : String) : State := (given s).drive (resultOfLine Config.regMarkers opcodeTable (str s))

theorem step_given (s : String) : step (given s) = .next (stepped s) := step_next _

theorem given_romLoaded (s : String) : (given s).RomLoaded := rfl

theorem r31_is_register : RegisterToken Config.regMarkers (str "R31") :=
  ⟨_, _, rfl, by decide, by decide, by decide⟩

theorem r32_is_register : RegisterToken Config.regMarkers (str "R32") :=
  ⟨_, _, rfl, by decide, by decide, by decide⟩

theorem bare_marker_is_no_register : ¬RegisterToken Config.regMarkers (str "R") := by
  rw [← regShaped_iff]
  decide

theorem minus_one_is_immediate : ImmediateToken (str "-1") (-1) :=
  (immShaped_iff _ _).mp (by decide)

theorem hex_form_is_no_immediate : ¬∃ v, ImmediateToken (str "0x10") v :=
  (immShaped_eq_false_iff _).mp (by decide)

theorem witness_LineOfInstructionDecodesToIt : ∃ i, WellFormed i = true ∧ i.operands.length = 4 :=
  ⟨.jr [str "R5", str "0x10", str "#", [0xC4#8]], by decide, rfl⟩

theorem witness_DecodedInstructionsAreWellFormed :
    decodeLine opcodeTable (str " jr R5 ,") = .ok (.jr [str "R5", str ","]) := by decide

theorem witness_WordsDecodeAndEncodeAgree :
    decodeWord 0x07FFFFFF = .ok (.addi [str "R31", str "R31", str "65535"]) ∧
    encode (.addi [str "R31", str "R031", str "-1"]) = .ok 0x07FFFFFF := by decide

theorem witness_CanonicalInstructionsDecodeFromTheirWord :
    0x24#8 ∈ str "R$" ∧ Instr.xor ∈ [Instr.add, Instr.sub, Instr.mul, Instr.or, Instr.and, Instr.xor] ∧
    Instr.beq ∈ [Instr.addi, Instr.subi, Instr.muli, Instr.ori, Instr.andi, Instr.xori, Instr.ldw, Instr.stw,
      Instr.bz, Instr.beq] := ⟨by decide, by simp, by simp⟩

theorem witness_TokensAreMaximalRunsOfNonSpaceBytes :
    str "R1" ∈ tokenize (str "  R1") ∧
    (str "R1" ≠ [] ∧ ∀ b ∈ str "R1", isWs b = false) ∧ (str "\t \r" ≠ [] ∧ ∀ b ∈ str "\t \r", isWs b = true) ∧
    tokenize (str "\t \r") = [] := by decide

theorem witness_MnemonicLetterCaseIsIgnored :
    tokenize (str "HaLt") = str "HaLt" :: [] ∧ tokenize (str " halt") = str "halt" :: [] ∧
    foldCase (str "HaLt") = foldCase (str "halt") ∧
    decodeLine opcodeTable (str "jr r5") = .ok (.jr [str "r5"]) := by decide

theorem witness_SurroundingWhiteSpaceIsIgnored : ∀ b ∈ str "\r\n", isWs b = true := by decide

theorem witness_StepRunsTheDecodedInstruction :
    decodeLine (given "JR R5").rom (given "JR R5").line = .ok (.jr [str "R5"]) ∧
    decodeLine (given "NOP").rom (given "NOP").line = .error .unknownOpcode := by decide

theorem witness_RegisterTokensParseByShapeThenRange :
    ¬RegisterToken Config.regMarkers (str "R") ∧
    (RegisterToken Config.regMarkers (str "R32") ∧ 31 < dec (str "R32").tail) ∧
    (RegisterToken Config.regMarkers (str "R31") ∧ dec (str "R31").tail ≤ 31) :=
  ⟨bare_marker_is_no_register, ⟨r32_is_register, by decide⟩, r31_is_register, by decide⟩

theorem witness_ImmediateTokensParseModulo65536 :
    ImmediateToken (str "-1") (-1) ∧ ¬∃ v, ImmediateToken (str "0x10") v :=
  ⟨minus_one_is_immediate, hex_form_is_no_immediate⟩

theorem witness_ImmediateReductionLaw :
    (∃ v : Int, -65536 ≤ v ∧ v ≤ -1) ∧ (∃ v : Int, 0 ≤ v ∧ v ≤ 65535) :=
  ⟨⟨-65536, by decide, by decide⟩, 65535, by decide, by decide⟩

theorem witness_FieldRouterFollowsTheFormat :
    let ops := [str "R1", str "R2", str "R31"]
    let ops' := [str "R1", str "R2", str "65535"]
    parseReg Config.regMarkers (slot ops 0) = .ok 1 ∧ parseReg Config.regMarkers (slot ops 1) = .ok 2 ∧
    parseReg Config.regMarkers (slot ops 2) = .ok 31 ∧ parseReg Config.regMarkers (slot ops' 0) = .ok 1 ∧
    parseReg Config.regMarkers (slot ops' 1) = .ok 2 ∧ parseImm (slot ops' 2) = .ok 65535 := by decide

theorem witness_HexDeterminesTheWord : ∃ v w : Word, renderHex v = renderHex w := ⟨0, 0, rfl⟩

theorem witness_RTypeInstructionsAnswerTheirWord :
    State.reset.RomLoaded ∧ parseReg Config.regMarkers (str "R31") = .ok 31 ∧
    parseReg Config.regMarkers (str "R0") = .ok 0 ∧ parseReg Config.regMarkers (str "R07") = .ok 7 :=
  ⟨rfl, by decide, by decide, by decide⟩

theorem witness_ITypeInstructionsAnswerTheirWord :
    State.reset.RomLoaded ∧ parseReg Config.regMarkers (str "R31") = .ok 31 ∧
    parseReg Config.regMarkers (str "R0") = .ok 0 ∧ ImmediateToken (str "-1") (-1) :=
  ⟨rfl, by decide, by decide, minus_one_is_immediate⟩

theorem witness_JrAnswersItsWordOrItsError :
    State.reset.RomLoaded ∧ parseReg Config.regMarkers (str "R31") = .ok 31 ∧
    [str "R5", str "R6"].length ≠ 1 ∧ ¬RegisterToken Config.regMarkers (str "R") ∧
    (RegisterToken Config.regMarkers (str "R32") ∧ 31 < dec (str "R32").tail) ∧
    (tokenize (given "jR R5").line = str "jR" :: [str "R5"] ∧ foldCase (str "jR") = ascii ['J', 'R']) :=
  ⟨rfl, by decide, by decide, bare_marker_is_no_register, ⟨r32_is_register, by decide⟩, by decide, by decide⟩

theorem witness_HaltAnswersItsOneWord :
    (given "Halt").RomLoaded ∧ tokenize (given "Halt").line = str "Halt" :: [] ∧
    foldCase (str "Halt") = ascii ['H', 'A', 'L', 'T'] := ⟨rfl, by decide, by decide⟩

theorem witness_OperandCountIsCheckedFirst :
    State.reset.RomLoaded ∧ ⟨.halt, 17#6, .haltType⟩ ∈ opcodeTable ∧ [str "R0"].length ≠ Format.haltType.nops :=
  ⟨rfl, by decide, by decide⟩

/-- Slot 2 of an I-type line is the first to fail. -/
theorem immediate_slot_fails_first :
    SlotFails Config.regMarkers .iType [str "R1", str "R2", str "0x10"] 2 .malformedOperands ∧
    ∀ j < 2, ∀ e, ¬SlotFails Config.regMarkers .iType [str "R1", str "R2", str "0x10"] j e := by
  refine ⟨?_, ?_⟩
  · unfold SlotFails
    rw [if_neg (by decide)]
    exact ⟨rfl, rfl, hex_form_is_no_immediate, rfl⟩
  · have h1 : RegisterToken Config.regMarkers (str "R1") := ⟨_, _, rfl, by decide, by decide, by decide⟩
    have h2 : RegisterToken Config.regMarkers (str "R2") := ⟨_, _, rfl, by decide, by decide, by decide⟩
    intro j hj e h
    match j, hj with
    | 0, _ =>
      unfold SlotFails at h
      rw [if_pos (by decide)] at h
      obtain ⟨hn, -⟩ | ⟨-, hlt, -⟩ := h
      · exact hn h1
      · exact absurd hlt (by decide)
    | 1, _ =>
      unfold SlotFails at h
      rw [if_pos (by decide)] at h
      obtain ⟨hn, -⟩ | ⟨-, hlt, -⟩ := h
      · exact hn h2
      · exact absurd hlt (by decide)

/-- Slot 0 of an R-type line fails by its range. -/
theorem register_slot_fails_first :
    SlotFails Config.regMarkers .rType [str "R32", str "X1", str "R2"] 0 .invalidRegister := by
  unfold SlotFails
  rw [if_pos (by decide)]
  exact .inr ⟨r32_is_register, by decide, rfl⟩

theorem witness_FirstFailingSlotDecidesTheError :
    State.reset.RomLoaded ∧ ⟨.beq, 15#6, .iType⟩ ∈ opcodeTable ∧
    [str "R1", str "R2", str "0x10"].length = Format.iType.nops ∧
    SlotFails Config.regMarkers .iType [str "R1", str "R2", str "0x10"] 2 .malformedOperands ∧
    (∀ j < 2, ∀ e, ¬SlotFails Config.regMarkers .iType [str "R1", str "R2", str "0x10"] j e) ∧
    (∀ k e, ¬SlotFails Config.regMarkers .haltType [] k e) :=
  ⟨rfl, by decide, rfl, immediate_slot_fails_first.1, immediate_slot_fails_first.2, by
    intro k e h
    unfold SlotFails at h
    rw [if_neg (by simp [registerSlots])] at h
    exact absurd h.1 (by decide)⟩

theorem witness_OnlyTheOutputPortsChange :
    (∃ t, exec (.halt []) State.reset = .next t) ∧ (∃ t, step State.reset = .next t) ∧
    ∃ t, request (str "HALT") State.reset = .next t :=
  ⟨⟨_, exec_next _ _⟩, ⟨_, step_next _⟩, _, step_given "HALT"⟩

theorem witness_EveryInstructionFollowsItsOwnRule : State.reset.RomLoaded := rfl

theorem witness_StepAnswersTheEncodingOfTheLine :
    (given "JR R31").RomLoaded ∧ encodeLine (given "JR R31").line = .ok 0x43E00000 := ⟨rfl, by decide⟩

theorem witness_UnknownOpcodeExactlyWithoutAMnemonic :
    (given "HALT.").RomLoaded ∧ tokenize (given "HALT.").line = str "HALT." :: [] := ⟨rfl, by decide⟩

theorem witness_StatusPortsTellTheResult :
    (given "JR R31").RomLoaded ∧ step (given "JR R31") = .next (stepped "JR R31") ∧ (stepped "JR R31").ok = true ∧
    (given "JR R32").RomLoaded ∧ encodeLine (given "JR R32").line = .error .invalidRegister :=
  ⟨rfl, step_given _, by decide, rfl, by decide⟩

theorem witness_ErrorPriorityOfALine :
    tokenize (given "").line = [] ∧
    (tokenize (given "ADD, X").line = str "ADD," :: [str "X"] ∧
      romLookup opcodeTable (foldCase (str "ADD,")) = none) ∧
    (tokenize (given "ADD R32 X1 R2").line = str "ADD" :: [str "R32", str "X1", str "R2"] ∧
      romLookup opcodeTable (foldCase (str "ADD")) = some ⟨.add, 0#6, .rType⟩ ∧
      [str "R32", str "X1"].length ≠ Format.rType.nops ∧
      SlotFails Config.regMarkers .rType [str "R32", str "X1", str "R2"] 0 .invalidRegister) :=
  ⟨by decide, by decide, by decide, by decide, by decide, register_slot_fails_first⟩

theorem witness_AnsweredWordsReadBackTheirFields :
    step (given "beq R31 R0 -65537") = .next (stepped "beq R31 R0 -65537") ∧
    (stepped "beq R31 R0 -65537").ok = true ∧
    step (given "ADD R31 R0 R07") = .next (stepped "ADD R31 R0 R07") ∧ (stepped "ADD R31 R0 R07").ok = true ∧
    step (given "JR R31") = .next (stepped "JR R31") ∧ (stepped "JR R31").ok = true :=
  ⟨step_given _, by decide, step_given _, by decide, step_given _, by decide⟩

theorem witness_ProducedWordsAreExactlyTheTableWords :
    (∃ s t : State, s.RomLoaded ∧ step s = .next t ∧ t.ok = true ∧ t.word = 0x44000000) ∧ TableWord 0x44000000 :=
  ⟨⟨given "HALT", stepped "HALT", rfl, step_given _, by decide, by decide⟩,
    ⟨.halt, 17#6, .haltType⟩, by decide, by decide, by decide⟩

theorem witness_UnassignedOpcodesAreNeverProduced :
    (given "HALT").RomLoaded ∧ step (given "HALT") = .next (stepped "HALT") ∧ (stepped "HALT").ok = true ∧
    ((stepped "HALT").word.extractLsb' 26 6).toNat = 17 :=
  ⟨rfl, step_given _, by decide, by decide⟩

theorem witness_AnyFieldValuesEncodeTogether :
    State.reset.RomLoaded ∧ ⟨.stw, 13#6, .iType⟩ ∈ opcodeTable := ⟨rfl, by decide⟩

/-- Two states with the same inputs and different ports. -/
theorem witness_SameLineSameAnswer :
    (given "HALT").rom = (stepped "HALT").rom ∧ (given "HALT").line = (stepped "HALT").line ∧
    (given "HALT").ok ≠ (stepped "HALT").ok ∧ step (given "HALT") = .next (stepped "HALT") :=
  ⟨rfl, rfl, by decide, step_given _⟩

theorem witness_RequestsAreIndependent : (given "HALT").rom = State.reset.rom ∧ (given "HALT") ≠ State.reset :=
  ⟨rfl, by decide⟩

/-- One request served. -/
theorem served_one :
    serve [str "HALT"] State.reset = .next (stepped "HALT", [(stepped "HALT").response]) := by
  have h : request (str "HALT") State.reset = .next (stepped "HALT") := step_given "HALT"
  simp only [serve, h]

theorem witness_OutputFileHoldsTheAcceptedLinesInOrder :
    State.reset.RomLoaded ∧
    serve [str "HALT"] State.reset = .next (stepped "HALT", [(stepped "HALT").response]) := ⟨rfl, served_one⟩

/-- The step of any build with any line bound that the line is within. -/
theorem stepWith_given (p : Params) (s : String) (h : lineFits p.maxLineBytes (str s) = true) :
    stepWith p (given s) = .next ((given s).drive (resultOfLine p.regMarkers opcodeTable (str s))) := by
  obtain ⟨-, hs⟩ | ⟨hl, -⟩ := stepWith_cases p (given s)
  · exact hs
  · exact absurd (h.symm.trans hl) (by decide)

/-- A build that is not the default one: other markers, and the shortest bound for `JR $5`. -/
def otherBuild : Params := { regMarkers := str "R$", maxLineBytes := some 5 }

/-- A step of it. -/
def otherStepped : State := (given "JR $5").drive (resultOfLine (str "R$") opcodeTable (str "JR $5"))

theorem otherBuild_step : stepWith otherBuild (given "JR $5") = .next otherStepped :=
  stepWith_given otherBuild _ (by decide)

theorem witness_NothingStopsTheBlock : lineFits otherBuild.maxLineBytes (given "JR $5").line = true := by decide

theorem witness_CallerWritesNewlineTerminatedHexLines :
    State.reset.RomLoaded ∧ isSentinel (str "QUIT") = true ∧ ∀ l ∈ [str "HALT", str "q R1"], isSentinel l = false :=
  ⟨rfl, by decide, by decide⟩

theorem witness_StepAndCallerKeepTheInvariant : (given "HALT").Inv ∧ step (given "HALT") = .next (stepped "HALT") ∧
    (given "JR $5").Inv ∧ stepWith otherBuild (given "JR $5") = .next otherStepped :=
  ⟨⟨rfl, .inr ⟨rfl, .inl rfl⟩⟩, step_given _, ⟨rfl, .inr ⟨rfl, .inl rfl⟩⟩, otherBuild_step⟩

theorem witness_ServingKeepsTheInvariant :
    (given "HALT").Inv ∧ ∃ u rs, serve [] (given "HALT") = .next (u, rs) :=
  ⟨⟨rfl, .inr ⟨rfl, .inl rfl⟩⟩, _, _, rfl⟩

theorem witness_BoundedRealisationAgreesWithinItsBound :
    (given "HALT").line.length ≤ 4 ∧ 3 < (given "HALT").line.length := by decide

theorem witness_NetsAgreeWithThePorts :
    stepWith otherBuild (given "JR $5") = .next otherStepped ∧
    (evalNets otherBuild.regMarkers (given "JR $5").rom (given "JR $5").line).word = some 0x40A00000 :=
  ⟨otherBuild_step, by decide⟩

theorem witness_EveryBuildAnswersTheEncodingOfTheLine :
    (given "JR $5").RomLoaded ∧ lineFits otherBuild.maxLineBytes (given "JR $5").line = true ∧
    decodeLine (given "JR $5").rom (given "JR $5").line = .ok (.jr [str "$5"]) := ⟨rfl, by decide, by decide⟩

theorem witness_ExactlyTheBuildsMarkersAreAccepted :
    State.reset.RomLoaded ∧ isWs 0x24#8 = false ∧ isWs 0x72#8 = false ∧ ⟨.jr, 16#6, .jrType⟩ ∈ opcodeTable ∧
    (∀ m, lineFits otherBuild.maxLineBytes
      (Instr.ofMnemonic .jr (canonicalOperands m .jrType { rs := 5, rt := 0, rd := 0, imm16 := 0 })).toLine = true) ∧
    0x24#8 ∈ otherBuild.regMarkers ∧ 0x72#8 ∉ otherBuild.regMarkers ∧ Format.jrType ≠ .haltType :=
  ⟨rfl, by decide, by decide, by decide, fun _ => rfl, by decide, by decide, by decide⟩

theorem witness_WiderMarkerSetsKeepEveryAcceptance :
    Config.params.regMarkers ⊆ otherBuild.regMarkers ∧ lineFits otherBuild.maxLineBytes (given "JR R5").line = true ∧
    stepWith Config.params (given "JR R5") = .next (stepped "JR R5") ∧ (stepped "JR R5").ok = true :=
  ⟨by decide, by decide, stepWith_given Config.params _ rfl, by decide⟩

end Sys2Proof.Tests
end

section
/-! SUPPORT. What the text, the ROM and the front end do with an instruction's line and with any line
(00_scope.md R13, R15; 40_encode_pipeline.md R101, R102). -/

namespace Sys2Proof

open Sys2Proof.Laws

/-! ## Instructions as mnemonic and operands -/

@[simp] theorem Instr.mnemonic_ofMnemonic (m : Mnemonic) (ops : List Token) :
    (Instr.ofMnemonic m ops).mnemonic = m := by
  cases m <;> rfl

@[simp] theorem Instr.operands_ofMnemonic (m : Mnemonic) (ops : List Token) :
    (Instr.ofMnemonic m ops).operands = ops := by
  cases m <;> rfl

/-- The spelling facts of every constructor together. -/
theorem spelling : ∀ i : Instr, Spelling.Statement i
  | .add ops => Spelling.add ops
  | .addi ops => Spelling.addi ops
  | .sub ops => Spelling.sub ops
  | .subi ops => Spelling.subi ops
  | .mul ops => Spelling.mul ops
  | .muli ops => Spelling.muli ops
  | .or ops => Spelling.or ops
  | .ori ops => Spelling.ori ops
  | .and ops => Spelling.and ops
  | .andi ops => Spelling.andi ops
  | .xor ops => Spelling.xor ops
  | .xori ops => Spelling.xori ops
  | .ldw ops => Spelling.ldw ops
  | .stw ops => Spelling.stw ops
  | .bz ops => Spelling.bz ops
  | .beq ops => Spelling.beq ops
  | .jr ops => Spelling.jr ops
  | .halt ops => Spelling.halt ops

/-- The ROM row of every constructor. -/
theorem romRow : ∀ i : Instr, RomRow.Statement i
  | .add ops => RomRow.add ops
  | .addi ops => RomRow.addi ops
  | .sub ops => RomRow.sub ops
  | .subi ops => RomRow.subi ops
  | .mul ops => RomRow.mul ops
  | .muli ops => RomRow.muli ops
  | .or ops => RomRow.or ops
  | .ori ops => RomRow.ori ops
  | .and ops => RomRow.and ops
  | .andi ops => RomRow.andi ops
  | .xor ops => RomRow.xor ops
  | .xori ops => RomRow.xori ops
  | .ldw ops => RomRow.ldw ops
  | .stw ops => RomRow.stw ops
  | .bz ops => RomRow.bz ops
  | .beq ops => RomRow.beq ops
  | .jr ops => RomRow.jr ops
  | .halt ops => RomRow.halt ops

@[simp] theorem Instr.ofMnemonic_mnemonic_operands (i : Instr) :
    Instr.ofMnemonic i.mnemonic i.operands = i :=
  (spelling i).1

theorem Mnemonic.isToken_key (m : Mnemonic) : isToken m.key = true := by
  simpa using (spelling (Instr.ofMnemonic m [])).2.1

@[simp] theorem Mnemonic.foldCase_key (m : Mnemonic) : foldCase m.key = m.key := by
  simpa using (spelling (Instr.ofMnemonic m [])).2.2

theorem wellFormed_iff {i : Instr} : WellFormed i = true ↔ ∀ t ∈ i.operands, isToken t = true :=
  List.all_eq_true

/-- The keys of the ROM of R21 are distinct: each of its entries is the one its key hits (R23). -/
theorem romLookup_of_mem_opcodeTable {e : RomEntry} (he : e ∈ opcodeTable) :
    romLookup opcodeTable e.mnemonic.key = some e := by
  have rows : ∀ e ∈ opcodeTable, romLookup opcodeTable e.mnemonic.key = some e := by decide
  exact rows e he

/-! ## Tokens and lines -/

/-- Tokens joined by single spaces are the tokens of the joined line. -/
theorem tokenize_joinTokens {ts : List Token} (h : ∀ t ∈ ts, isToken t = true) :
    tokenize (joinTokens ts) = ts := by
  induction ts with
  | nil => rfl
  | cons t ts ih =>
    have ht : isToken t = true := h t (by simp)
    cases ts with
    | nil => exact tokenize_token ht
    | cons u us =>
      have hrest : tokenize (joinTokens (u :: us)) = u :: us := ih fun v hv => h v (by simp [hv])
      calc tokenize (t ++ 0x20#8 :: joinTokens (u :: us))
          = t :: tokenize (joinTokens (u :: us)) := tokenize_token_ws ht (by decide) _
        _ = t :: u :: us := by rw [hrest]

/-- The line of a well-formed instruction holds its key and its operand tokens. -/
theorem tokenize_toLine {i : Instr} (h : WellFormed i = true) :
    tokenize i.toLine = i.mnemonic.key :: i.operands := by
  refine tokenize_joinTokens fun t ht => ?_
  obtain rfl | hop := List.mem_cons.mp ht
  · exact i.mnemonic.isToken_key
  · exact wellFormed_iff.mp h t hop

/-- Closing a run of non-WS bytes in front of tokens gives tokens. -/
theorem isToken_of_mem_closeRun {run : Token} {toks : List Token} (hrun : ∀ b ∈ run, isWs b = false)
    (htoks : ∀ t ∈ toks, isToken t = true) {t : Token} (ht : t ∈ closeRun run toks) : isToken t = true := by
  cases run with
  | nil => exact htoks t ht
  | cons b bs =>
    obtain rfl | ht := List.mem_cons.mp ht
    · exact isToken_iff.mpr ⟨by simp, hrun⟩
    · exact htoks t ht

/-- The run a line starts with holds no WS byte, and what follows it are tokens. -/
theorem splitRun_spec (l : Line) :
    (∀ b ∈ (splitRun l).1, isWs b = false) ∧ ∀ t ∈ (splitRun l).2, isToken t = true := by
  induction l with
  | nil => simp [splitRun]
  | cons b l ih =>
    obtain ⟨hrun, htoks⟩ := ih
    cases hb : isWs b with
    | true =>
      rw [splitRun_cons_ws hb]
      exact ⟨by simp, fun _ ht => isToken_of_mem_closeRun hrun htoks ht⟩
    | false =>
      rw [splitRun_cons_nonWs hb]
      exact ⟨List.forall_mem_cons.mpr ⟨hb, hrun⟩, htoks⟩

/-- The tokenizer gives tokens only (R101). -/
theorem isToken_of_mem_tokenize {l : Line} {t : Token} (h : t ∈ tokenize l) : isToken t = true :=
  isToken_of_mem_closeRun (splitRun_spec l).1 (splitRun_spec l).2 h

/-! ## Decoding a line -/

/-- A line decodes exactly when its first token, folded, hits in the ROM: to the instruction of the entry hit with the
other tokens as operands (R102). -/
theorem decodeLine_eq_ok_iff {rom : List RomEntry} {line : Line} {i : Instr} :
    decodeLine rom line = .ok i ↔
      ∃ t ops e, tokenize line = t :: ops ∧ romLookup rom (foldCase t) = some e ∧
        i = Instr.ofMnemonic e.mnemonic ops := by
  unfold decodeLine
  cases tokenize line with
  | nil => simp
  | cons t ops =>
    obtain ⟨hmiss, hmux⟩ | ⟨e, hhit, hmux⟩ := Machine.opcodeMux_cases rom (foldCase t)
    · simp [hmux, hmiss, Bind.bind, Except.bind]
    · simp [hmux, hhit, Bind.bind, Except.bind, Pure.pure, Except.pure, eq_comm]

/-- The line of a well-formed instruction decodes to it. -/
theorem decodeLine_toLine {i : Instr} (h : WellFormed i = true) : decodeLine opcodeTable i.toLine = .ok i := by
  obtain ⟨e, hhit, -, hm⟩ := romRow i
  refine decodeLine_eq_ok_iff.mpr ⟨_, _, e, tokenize_toLine h, ?_, ?_⟩
  · rwa [Mnemonic.foldCase_key]
  · rw [hm, Instr.ofMnemonic_mnemonic_operands]

end Sys2Proof

namespace Sys2Proof.Machine

/-- Settles O4: a line is its tokens joined, and its key hits its own ROM row. -/
theorem lineOfInstructionDecodesToIt : Obligations.LineOfInstructionDecodesToIt :=
  fun _ h => decodeLine_toLine h

/-- Settles O5: the operands are tokens of the line, and the key hit is the first token folded. -/
theorem decodedInstructionsAreWellFormed : Obligations.DecodedInstructionsAreWellFormed := by
  intro rom line i h
  obtain ⟨t, ops, e, htoks, hhit, rfl⟩ := decodeLine_eq_ok_iff.mp h
  have hkey : e.mnemonic.key = foldCase t := (romLookup_some hhit).2
  simp only [wellFormed_iff, Instr.operands_ofMnemonic, Instr.mnemonic_ofMnemonic]
  exact ⟨fun u hu => isToken_of_mem_tokenize (htoks ▸ List.mem_cons_of_mem t hu), t, htoks, hkey.symm⟩

end Sys2Proof.Machine
end

section
/-! SUPPORT. The machine's path (ROM, router, packer) and the per-instruction encodings agree, under any marker set
(40_encode_pipeline.md R100; 00_scope.md R7). -/

namespace Sys2Proof.Machine

open Sys2Proof.Laws

/-! ## Results in sequence -/

/-- A sequence of two stages ends in a value exactly when both do. -/
theorem bind_eq_ok_iff {ε α β : Type} {x : Except ε α} {f : α → Except ε β} {b : β} :
    x >>= f = .ok b ↔ ∃ a, x = .ok a ∧ f a = .ok b := by
  cases x <;> simp [Bind.bind, Except.bind]

theorem map_eq_ok_iff {ε α β : Type} {x : Except ε α} {g : α → β} {b : β} :
    x.map g = .ok b ↔ ∃ a, x = .ok a ∧ g a = b := by
  cases x <;> simp [Except.map]

/-! ## The packer as shift and or (R108)

The packed word as a concatenation widened to the 32 bits it has already, each part then shifted to its place. -/

theorem pack_rType_eq_or (op : Opcode) (f : Fields) : pack .rType op f =
    op.setWidth 32 <<< 26 ||| f.rs.setWidth 32 <<< 21 ||| f.rt.setWidth 32 <<< 16 ||| f.rd.setWidth 32 <<< 11 := by
  calc pack .rType op f = (op ++ f.rs ++ f.rt ++ f.rd ++ 0#11 : BitVec (6 + 5 + 5 + 5 + 11)).setWidth 32 :=
        (BitVec.setWidth_eq _).symm
    _ = _ := by
        simp only [BitVec.setWidth_append_eq_shiftLeft_setWidth_or, BitVec.shiftLeft_or_distrib,
          ← BitVec.shiftLeft_add]
        simp

theorem pack_iType_eq_or (op : Opcode) (f : Fields) : pack .iType op f =
    op.setWidth 32 <<< 26 ||| f.rs.setWidth 32 <<< 21 ||| f.rt.setWidth 32 <<< 16 ||| f.imm16.setWidth 32 := by
  calc pack .iType op f = (op ++ f.rs ++ f.rt ++ f.imm16 : BitVec (6 + 5 + 5 + 16)).setWidth 32 :=
        (BitVec.setWidth_eq _).symm
    _ = _ := by
        simp only [BitVec.setWidth_append_eq_shiftLeft_setWidth_or, BitVec.shiftLeft_or_distrib,
          ← BitVec.shiftLeft_add]

theorem pack_jrType_eq_or (op : Opcode) (f : Fields) : pack .jrType op f =
    op.setWidth 32 <<< 26 ||| f.rs.setWidth 32 <<< 21 := by
  calc pack .jrType op f = (op ++ f.rs ++ 0#21 : BitVec (6 + 5 + 21)).setWidth 32 := (BitVec.setWidth_eq _).symm
    _ = _ := by
        simp only [BitVec.setWidth_append_eq_shiftLeft_setWidth_or, BitVec.shiftLeft_or_distrib,
          ← BitVec.shiftLeft_add]
        simp

theorem pack_haltType_eq_shift (op : Opcode) (f : Fields) : pack .haltType op f = op.setWidth 32 <<< 26 := by
  calc pack .haltType op f = (op ++ 0#26 : BitVec (6 + 26)).setWidth 32 := (BitVec.setWidth_eq _).symm
    _ = _ := by
        simp only [BitVec.setWidth_append_eq_shiftLeft_setWidth_or]
        simp

/-! ## A format's rule and the router -/

/-- The rule of a format's instructions over the fixed bits of one of them. -/
def formatWord (markers : List Byte) : Format → Word → List Token → Except EncodeError Word
  | .rType => rWord markers
  | .iType => iWord markers
  | .jrType => jrWord markers
  | .haltType => haltWord

/-- Each instruction's own rule is its format's, its fixed bits the ROM's opcode in the opcode field. -/
theorem encodeWith_ofMnemonic {e : RomEntry} (he : e ∈ opcodeTable) (markers : List Byte) (ops : List Token) :
    encodeWith markers (Instr.ofMnemonic e.mnemonic ops) =
      formatWord markers e.format (e.opcode.setWidth 32 <<< 26) ops := by
  simp only [opcodeTable, List.mem_cons, List.not_mem_nil, or_false] at he
  rcases he with rfl | rfl | rfl | rfl | rfl | rfl | rfl | rfl | rfl | rfl | rfl | rfl | rfl | rfl | rfl | rfl | rfl |
    rfl <;> rfl

/-- On as many operands as the format takes, the format's rule is the router followed by the packer; on any other
number it is MalformedOperands. -/
theorem formatWord_eq_route_pack (markers : List Byte) (fmt : Format) (op : Opcode) (ops : List Token) :
    formatWord markers fmt (op.setWidth 32 <<< 26) ops =
      if ops.length = fmt.nops then pack fmt op <$> route markers fmt ops else .error .malformedOperands := by
  cases fmt with
  | rType =>
    match ops with
    | [t0, t1, t2] => simp [formatWord, rWord, route, slot, Format.nops, pack_rType_eq_or]
    | [] | [_] | [_, _] | _ :: _ :: _ :: _ :: _ => simp [formatWord, rWord, Format.nops]
  | iType =>
    match ops with
    | [t0, t1, t2] => simp [formatWord, iWord, route, slot, Format.nops, pack_iType_eq_or]
    | [] | [_] | [_, _] | _ :: _ :: _ :: _ :: _ => simp [formatWord, iWord, Format.nops]
  | jrType =>
    match ops with
    | [t0] => simp [formatWord, jrWord, route, slot, Format.nops, pack_jrType_eq_or]
    | [] | _ :: _ :: _ => simp [formatWord, jrWord, Format.nops]
  | haltType =>
    match ops with
    | [] => simp [formatWord, haltWord, route, Format.nops, pack_haltType_eq_shift, Pure.pure, Except.pure]
    | _ :: _ => simp [formatWord, haltWord, Format.nops]

/-! ## Results of instructions and lines -/

/-- On a ROM hit a mnemonic's result is the count check, then the router followed by the packer. -/
theorem resultAs_of_hit {rom : List RomEntry} {m : Mnemonic} {e : RomEntry} (h : romLookup rom m.key = some e)
    (markers : List Byte) (ops : List Token) :
    resultAs markers rom m ops =
      if ops.length = e.format.nops then pack e.format e.opcode <$> route markers e.format ops
      else .error .malformedOperands := by
  rw [resultAs, routeAs_of_hit h]
  split
  · cases route markers e.format ops <;> rfl
  · rfl

/-- With the ROM loaded, the machine's result for an instruction is the one its own rule gives. -/
theorem resultAs_opcodeTable (markers : List Byte) (i : Instr) :
    resultAs markers opcodeTable i.mnemonic i.operands = encodeWith markers i := by
  obtain ⟨e, hhit, he, hm⟩ := romRow i
  have hi : Instr.ofMnemonic e.mnemonic i.operands = i := by rw [hm, Instr.ofMnemonic_mnemonic_operands]
  rw [resultAs_of_hit hhit, ← formatWord_eq_route_pack, ← encodeWith_ofMnemonic he, hi]

/-- The result of a line that decodes is its instruction's. -/
theorem resultOfLine_of_decodeLine {rom : List RomEntry} {line : Line} {i : Instr} (h : decodeLine rom line = .ok i)
    (markers : List Byte) :
    resultOfLine markers rom line = resultAs markers rom i.mnemonic i.operands := by
  rw [resultOfLine, h]
  rfl

/-- With the ROM loaded, the machine's result for a line is `encode(line)`. -/
theorem resultOfLine_opcodeTable (markers : List Byte) (line : Line) :
    resultOfLine markers opcodeTable line = encodeLineWith markers line := by
  simp only [resultOfLine, resultAs_opcodeTable]
  rfl

/-! ## Steps of a build -/

/-- A line within the bound is answered by its result. -/
theorem stepWith_of_fits {p : Params} {s : State} (h : lineFits p.maxLineBytes s.line = true) :
    stepWith p s = .next (s.drive (resultOfLine p.regMarkers s.rom s.line)) := by
  obtain ⟨-, hs⟩ | ⟨hlong, -⟩ := stepWith_cases p s
  · exact hs
  · simp [h] at hlong

/-- A line over the bound stops the build. -/
theorem stepWith_of_not_fits {p : Params} {s : State} (h : lineFits p.maxLineBytes s.line = false) :
    stepWith p s = .fault .lineTooLong := by
  obtain ⟨hfit, -⟩ | ⟨-, hs⟩ := stepWith_cases p s
  · simp [h] at hfit
  · exact hs

/-- A step that goes on is the answer to a line within the bound. -/
theorem stepWith_eq_next_iff {p : Params} {s t : State} :
    stepWith p s = .next t ↔
      lineFits p.maxLineBytes s.line = true ∧ t = s.drive (resultOfLine p.regMarkers s.rom s.line) := by
  obtain ⟨h, hs⟩ | ⟨h, hs⟩ := stepWith_cases p s <;> simp [h, hs, eq_comm]

theorem lineFits_some {n : Nat} {l : Line} : lineFits (some n) l = true ↔ l.length ≤ n := decide_eq_true_iff

/-! ## Canonical operands -/

/-- Canonical operands spelled with a non-WS byte are tokens. -/
theorem isToken_of_mem_canonicalOperands {m : Byte} (hm : isWs m = false) {fmt : Format} {f : Fields} {t : Token}
    (ht : t ∈ canonicalOperands m fmt f) : isToken t = true := by
  cases fmt <;> simp only [canonicalOperands, List.mem_cons, List.not_mem_nil, or_false] at ht
  case rType => rcases ht with rfl | rfl | rfl <;> exact isToken_regToken hm _
  case iType =>
    rcases ht with rfl | rfl | rfl
    · exact isToken_regToken hm _
    · exact isToken_regToken hm _
    · exact isToken_immToken _
  case jrType => exact ht ▸ isToken_regToken hm _

theorem length_canonicalOperands (m : Byte) (fmt : Format) (f : Fields) :
    (canonicalOperands m fmt f).length = fmt.nops := by
  cases fmt <;> rfl

/-- Canonical operands spelled with a marker of the set route to the fields they spell, as far as the format packs
them. -/
theorem route_canonicalOperands {markers : List Byte} {m : Byte} (hm : m ∈ markers) (fmt : Format) (op : Opcode)
    (f : Fields) : pack fmt op <$> route markers fmt (canonicalOperands m fmt f) = .ok (pack fmt op f) := by
  cases fmt <;>
    simp [route, canonicalOperands, slot, parseReg_regToken hm, parseImm_immToken, Bind.bind, Except.bind,
      Pure.pure, Except.pure, pack]

/-- Canonical operands spelled with a byte outside the set fail in slot 0, where the format has a register. -/
theorem route_canonicalOperands_foreign {markers : List Byte} {m : Byte} (hm : m ∉ markers) {fmt : Format}
    (hfmt : fmt ≠ .haltType) (f : Fields) :
    route markers fmt (canonicalOperands m fmt f) = .error .malformedOperands := by
  cases fmt with
  | haltType => exact absurd rfl hfmt
  | rType | iType | jrType =>
    simp [route, canonicalOperands, slot, parseReg_regToken_foreign hm, Bind.bind, Except.bind]

/-- The result of the line written for a ROM entry's canonical operands is what routing and packing them gives. -/
theorem resultOfLine_canonical {m : Byte} (hm : isWs m = false) {e : RomEntry} (he : e ∈ opcodeTable)
    (markers : List Byte) (f : Fields) :
    resultOfLine markers opcodeTable (Instr.ofMnemonic e.mnemonic (canonicalOperands m e.format f)).toLine =
      pack e.format e.opcode <$> route markers e.format (canonicalOperands m e.format f) := by
  have hwf : WellFormed (Instr.ofMnemonic e.mnemonic (canonicalOperands m e.format f)) = true :=
    wellFormed_iff.mpr fun t ht => isToken_of_mem_canonicalOperands hm (by simpa using ht)
  rw [resultOfLine_of_decodeLine (decodeLine_toLine hwf), Instr.mnemonic_ofMnemonic, Instr.operands_ofMnemonic,
    resultAs_of_hit (romLookup_of_mem_opcodeTable he), if_pos (length_canonicalOperands m e.format f)]

/-! ## Wider marker sets -/

section Wider

variable {markers markers' : List Byte} (hsub : markers ⊆ markers')
include hsub

theorem registerToken_mono {t : Token} (h : RegisterToken markers t) : RegisterToken markers' t := by
  obtain ⟨m, ds, ht, hm, hds⟩ := h
  exact ⟨m, ds, ht, hsub hm, hds⟩

/-- A register token a marker set accepts is accepted with the same index under a wider one. -/
theorem parseReg_mono {t : Token} {r : RegIndex} (h : parseReg markers t = .ok r) : parseReg markers' t = .ok r := by
  obtain ⟨-, hp⟩ | ⟨-, -, hp⟩ | ⟨hs, hle, hp⟩ := parseReg_cases markers t
  · simp [hp] at h
  · simp [hp] at h
  · have hs' : regShaped markers' t = true :=
      (regShaped_iff _ _).mpr (registerToken_mono hsub ((regShaped_iff _ _).mp hs))
    rw [← h, hp, parseReg, hs', if_neg (by decide), if_neg (by omega)]

/-- The router keeps every acceptance, fields and all. -/
theorem route_mono {fmt : Format} {ops : List Token} {f : Fields} (h : route markers fmt ops = .ok f) :
    route markers' fmt ops = .ok f := by
  cases fmt with
  | rType =>
    simp only [route, bind_eq_ok_iff] at h ⊢
    obtain ⟨rd, h0, rs, h1, rt, h2, hf⟩ := h
    exact ⟨rd, parseReg_mono hsub h0, rs, parseReg_mono hsub h1, rt, parseReg_mono hsub h2, hf⟩
  | iType =>
    simp only [route, bind_eq_ok_iff] at h ⊢
    obtain ⟨rt, h0, rs, h1, himm⟩ := h
    exact ⟨rt, parseReg_mono hsub h0, rs, parseReg_mono hsub h1, himm⟩
  | jrType =>
    simp only [route, bind_eq_ok_iff] at h ⊢
    obtain ⟨rs, h0, hf⟩ := h
    exact ⟨rs, parseReg_mono hsub h0, hf⟩
  | haltType => exact h

theorem routeAs_mono {rom : List RomEntry} {m : Mnemonic} {ops : List Token} {ef : RomEntry × Fields}
    (h : routeAs markers rom m ops = .ok ef) : routeAs markers' rom m ops = .ok ef := by
  simp only [routeAs, bind_eq_ok_iff] at h ⊢
  obtain ⟨e, hmux, u, hcount, f, hroute, hef⟩ := h
  exact ⟨e, hmux, u, hcount, f, route_mono hsub hroute, hef⟩

/-- A line accepted under a marker set is accepted with the same word under a wider one, whatever the ROM holds. -/
theorem resultOfLine_mono {rom : List RomEntry} {line : Line} {w : Word}
    (h : resultOfLine markers rom line = .ok w) : resultOfLine markers' rom line = .ok w := by
  obtain ⟨i, hdec, hres⟩ := bind_eq_ok_iff.mp h
  obtain ⟨ef, hroute, hw⟩ := map_eq_ok_iff.mp hres
  exact bind_eq_ok_iff.mpr ⟨i, hdec, map_eq_ok_iff.mpr ⟨ef, routeAs_mono hsub hroute, hw⟩⟩

end Wider

theorem okFlag_eq_true_iff {r : Except EncodeError Word} : okFlag r = true ↔ ∃ w, r = .ok w := by
  cases r <;> simp

/-! ## The statements about builds -/

/-- Settles O49: the machine's results are those of the per-instruction rules once the ROM is loaded. -/
theorem everyBuildAnswersTheEncodingOfTheLine : Obligations.EveryBuildAnswersTheEncodingOfTheLine := by
  refine ⟨fun markers i s hrom => ?_, fun p s hrom hfit => ⟨fun i hdec => ?_, ?_⟩⟩
  · rw [execWith_next, hrom, resultAs_opcodeTable]
    exact ⟨_, rfl, s.drive_shows _, s.drive_sameInputs _⟩
  · rw [stepWith_of_fits hfit, execWith_next, resultOfLine_of_decodeLine hdec]
  · rw [stepWith_of_fits hfit, hrom, resultOfLine_opcodeTable]
    exact ⟨_, rfl, s.drive_shows _, s.drive_sameInputs _⟩

/-- Settles O50: the canonical operands route to their fields under a marker of the set, and fail in slot 0 under
another byte. -/
theorem exactlyTheBuildsMarkersAreAccepted : Obligations.ExactlyTheBuildsMarkersAreAccepted := by
  intro p s m e f hrom hws he line hfit
  have hstep : stepWith p (s.present line) = .next ((s.present line).drive
      (pack e.format e.opcode <$> route p.regMarkers e.format (canonicalOperands m e.format f))) := by
    rw [stepWith_of_fits hfit, State.present_rom, State.present_line, hrom, resultOfLine_canonical hws he]
  refine ⟨_, hstep, fun hm => ?_, fun hm hfmt => ?_⟩
  · rw [route_canonicalOperands hm]
    exact State.drive_shows _ _
  · rw [route_canonicalOperands_foreign hm hfmt]
    exact State.drive_shows _ _

/-- Settles O51: an accepted line's result is the same under the wider set, and the ports are driven from it alone. -/
theorem widerMarkerSetsKeepEveryAcceptance : Obligations.WiderMarkerSetsKeepEveryAcceptance := by
  intro p p' s t hsub hfit' hstep hok
  obtain ⟨-, rfl⟩ := stepWith_eq_next_iff.mp hstep
  obtain ⟨w, hw⟩ := okFlag_eq_true_iff.mp hok
  rw [stepWith_of_fits hfit', hw, resultOfLine_mono hsub hw]

/-- Settles O46: within the bound both builds answer the line's result; beyond it the bounded one stops. -/
theorem boundedRealisationAgreesWithinItsBound : Obligations.BoundedRealisationAgreesWithinItsBound := by
  intro n s
  have within (markers : List Byte) (h : s.line.length ≤ n) :
      stepWith ⟨markers, some n⟩ s = stepWith ⟨markers, none⟩ s := by
    rw [stepWith_of_fits (lineFits_some.mpr h), stepWith_of_fits rfl]
  refine ⟨fun h => ?_, fun markers => ⟨within markers, fun h => stepWith_of_not_fits ?_⟩⟩
  · rw [step_eq_stepWith]
    exact within Config.regMarkers h
  · exact decide_eq_false (by omega)

/-- Settles O48: every arm of `exec` is the encode operation under the default markers. -/
theorem theModelIsTheDefaultBuild : Obligations.TheModelIsTheDefaultBuild :=
  ⟨rfl, rfl, exec_eq_execWith, step_eq_stepWith, fun _ => rfl⟩

end Sys2Proof.Machine
end

section
/-! SUPPORT. What the result of a line can be on any ROM, the nets and the ports it drives, and the invariant
(10_state.md R22, R23, R27, R30; 30_encoding.md R72). -/

namespace Sys2Proof.Machine

/-! ## The ROM -/

/-- Settles O2: the reset ROM is the table of R21, row by row. -/
theorem resetRomHoldsTheEighteenEntries : Obligations.ResetRomHoldsTheEighteenEntries := by
  unfold Obligations.ResetRomHoldsTheEighteenEntries
  decide

theorem romLookup_eq_none_iff {rom : List RomEntry} {t : Token} :
    romLookup rom t = none ↔ ∀ e ∈ rom, e.mnemonic.key ≠ t := by
  simp [romLookup]

/-- Settles O3: a hit is an entry under its key, and the keys of R21 are distinct. -/
theorem romHitsExactlyOnItsKeys : Obligations.RomHitsExactlyOnItsKeys := by
  refine fun t => ⟨fun e => ⟨romLookup_some, ?_⟩, romLookup_eq_none_iff⟩
  rintro ⟨he, hkey⟩
  rw [← hkey, romLookup_of_mem_opcodeTable he]

/-! ## The packed word is a table word -/

/-- The packer puts the opcode in the opcode field (R41, R69). -/
theorem opField_pack (fmt : Format) (op : Opcode) (f : Fields) : opField (pack fmt op f) = op := by
  apply BitVec.eq_of_toNat_eq
  have hrs := f.rs.isLt
  have hrt := f.rt.isLt
  have hrd := f.rd.isLt
  have himm := f.imm16.isLt
  rw [opField, BitVec.extractLsb'_toNat, Nat.shiftRight_eq_div_pow]
  cases fmt with
  | rType => rw [pack_rType_toNat]; omega
  | iType => rw [pack_iType_toNat]; omega
  | jrType => rw [pack_jrType_toNat]; omega
  | haltType => rw [pack_haltType_toNat]; omega

/-- The packer leaves every bit its format does not use 0 (R66). -/
theorem unusedBitsZero_pack (fmt : Format) (op : Opcode) (f : Fields) :
    unusedBitsZero fmt (pack fmt op f) = true := by
  cases fmt with
  | iType => rfl
  | rType | jrType | haltType =>
    refine beq_iff_eq.mpr (BitVec.eq_of_toNat_eq ?_)
    simp only [BitVec.extractLsb'_toNat, pack_rType_toNat, pack_jrType_toNat, pack_haltType_toNat,
      BitVec.toNat_ofNat, Nat.shiftRight_zero]
    omega

theorem tableWord_pack {e : RomEntry} (he : e ∈ opcodeTable) (f : Fields) : TableWord (pack e.format e.opcode f) :=
  ⟨e, he, (opField_pack _ _ f).symm, unusedBitsZero_pack _ _ f⟩

/-! ## The result of a line, on any ROM -/

/-- A line without a token has UnknownOpcode as its result (R101, D7). -/
theorem resultOfLine_of_no_token {line : Line} (h : tokenize line = []) (markers : List Byte) (rom : List RomEntry) :
    resultOfLine markers rom line = .error .unknownOpcode := by
  simp [resultOfLine, decodeLine, h, Except.bind]

/-- A line whose first token misses has UnknownOpcode as its result (R102). -/
theorem resultOfLine_of_miss {rom : List RomEntry} {line : Line} {t : Token} {ops : List Token}
    (htoks : tokenize line = t :: ops) (hmiss : romLookup rom (foldCase t) = none) (markers : List Byte) :
    resultOfLine markers rom line = .error .unknownOpcode := by
  simp [resultOfLine, decodeLine, htoks, opcodeMux, hmiss, Bind.bind, Except.bind]

/-- A line whose first token hits has the result of the count check, the router and the packer on the entry hit. -/
theorem resultOfLine_of_hit {rom : List RomEntry} {line : Line} {t : Token} {ops : List Token} {e : RomEntry}
    (htoks : tokenize line = t :: ops) (hhit : romLookup rom (foldCase t) = some e) (markers : List Byte) :
    resultOfLine markers rom line =
      if ops.length = e.format.nops then pack e.format e.opcode <$> route markers e.format ops
      else .error .malformedOperands := by
  rw [resultOfLine_of_decodeLine (decodeLine_eq_ok_iff.mpr ⟨t, ops, e, htoks, hhit, rfl⟩),
    Instr.mnemonic_ofMnemonic, Instr.operands_ofMnemonic, resultAs_of_hit (romLookup_key hhit)]

/-- What the result of a line can be: UnknownOpcode without a hit; on a hit MalformedOperands for a wrong count, the
router's error, or the word packed from the routed fields (R100 to R108). -/
theorem resultOfLine_cases (markers : List Byte) (rom : List RomEntry) (line : Line) :
    resultOfLine markers rom line = .error .unknownOpcode ∨
    resultOfLine markers rom line = .error .malformedOperands ∨
    resultOfLine markers rom line = .error .invalidRegister ∨
    ∃ e ∈ rom, ∃ f, resultOfLine markers rom line = .ok (pack e.format e.opcode f) := by
  cases htoks : tokenize line with
  | nil => exact .inl (resultOfLine_of_no_token htoks markers rom)
  | cons t ops =>
    cases hlook : romLookup rom (foldCase t) with
    | none => exact .inl (resultOfLine_of_miss htoks hlook markers)
    | some e =>
      rw [resultOfLine_of_hit htoks hlook]
      split
      · cases hroute : route markers e.format ops with
        | error err =>
          obtain rfl | rfl := route_error hroute
          · exact .inr (.inl rfl)
          · exact .inr (.inr (.inl rfl))
        | ok f => exact .inr (.inr (.inr ⟨e, (romLookup_some hlook).1, f, rfl⟩))
      · exact .inr (.inl rfl)

/-! ## The invariant -/

/-- Settles O43: the reset ports are those of a line rejected with UnknownOpcode. -/
theorem resetSatisfiesTheInvariant : Obligations.ResetSatisfiesTheInvariant :=
  ⟨rfl, .inr ⟨rfl, .inl rfl⟩⟩

/-- With the ROM loaded, the ports driven with the result of any line, under any marker set, meet the invariant. -/
theorem State.inv_drive_resultOfLine {s : State} (hrom : s.RomLoaded) (markers : List Byte) (line : Line) :
    (s.drive (resultOfLine markers s.rom line)).Inv := by
  refine ⟨hrom, ?_⟩
  obtain hr | hr | hr | ⟨e, he, f, hr⟩ := resultOfLine_cases markers s.rom line <;> rw [hr]
  · exact .inr ⟨rfl, .inl rfl⟩
  · exact .inr ⟨rfl, .inr (.inl rfl)⟩
  · exact .inr ⟨rfl, .inr (.inr rfl)⟩
  · exact .inl ⟨rfl, rfl, rfl, tableWord_pack (hrom ▸ he) f⟩

theorem State.Inv.present {s : State} (h : s.Inv) (l : Line) : (s.present l).Inv := h

/-- A step of any build needs the ROM of the invariant only: it drives all the ports anew. -/
theorem State.Inv.stepWith {s t : State} (h : s.Inv) {p : Params} (hstep : stepWith p s = .next t) : t.Inv := by
  obtain ⟨-, rfl⟩ := stepWith_eq_next_iff.mp hstep
  exact State.inv_drive_resultOfLine h.1 _ _

theorem State.Inv.step {s t : State} (h : s.Inv) (hstep : step s = .next t) : t.Inv :=
  h.stepWith (step_eq_stepWith s ▸ hstep)

/-- Settles O44: a step drives a table word or one of three errors, and presenting a line touches no port of Inv. -/
theorem stepAndCallerKeepTheInvariant : Obligations.StepAndCallerKeepTheInvariant :=
  fun _ h => ⟨fun _ => h.step, h.present, fun _ _ => h.stepWith⟩

theorem State.Inv.request {s t : State} (h : s.Inv) {l : Line} (hreq : request l s = .next t) : t.Inv :=
  (h.present l).step hreq

/-- Serving a line and then others goes on exactly when the request and the serving of the others do. -/
theorem serve_cons_eq_next_iff {l : Line} {ls : List Line} {s u : State} {rs : List Response} :
    serve (l :: ls) s = .next (u, rs) ↔
      ∃ t rs', request l s = .next t ∧ serve ls t = .next (u, rs') ∧ rs = t.response :: rs' := by
  rw [serve]
  cases request l s with
  | fault r => simp
  | refused r => simp
  | next t =>
    cases hserve : serve ls t with
    | fault r => simp [hserve]
    | refused r => simp [hserve]
    | next v => simp [hserve, Prod.ext_iff, eq_comm]

/-- Settles O45, by induction on the lines. -/
theorem servingKeepsTheInvariant : Obligations.ServingKeepsTheInvariant := by
  intro ls
  induction ls with
  | nil =>
    intro s u rs h hserve
    cases hserve
    exact h
  | cons l ls ih =>
    intro s u rs h hserve
    obtain ⟨t, rs', hreq, hrest, -⟩ := serve_cons_eq_next_iff.mp hserve
    exact ih t u rs' (h.request hreq) hrest

/-! ## The frame and the status ports -/

/-- A step that goes on has driven the line's result. -/
theorem step_eq_next_iff {s t : State} :
    step s = .next t ↔ t = s.drive (resultOfLine Config.regMarkers s.rom s.line) := by
  simp [step_next, eq_comm]

/-- Settles O27: instructions and steps only drive the output ports, and presenting a line leaves the ROM. -/
theorem onlyTheOutputPortsChange : Obligations.OnlyTheOutputPortsChange := by
  refine ⟨fun i s t h => ?_, fun s t h => ?_, fun l s t h => ?_⟩
  · rw [exec_next] at h
    cases h
    exact s.drive_sameInputs _
  · rw [step_eq_next_iff.mp h]
    exact s.drive_sameInputs _
  · rw [step_eq_next_iff.mp h]
    rfl

/-- Settles O30: with the ROM loaded the ports are driven with `encode(line)`. -/
theorem statusPortsTellTheResult : Obligations.StatusPortsTellTheResult := by
  intro s t hrom hstep
  have ht : t = s.drive (encodeLine s.line) := by
    rw [step_eq_next_iff.mp hstep, hrom, resultOfLine_opcodeTable, encodeLine]
  subst ht
  cases encodeLine s.line with
  | ok w => simp
  | error e => simp

/-! ## The nets -/

/-- The word net is driven exactly with the word of an accepted line (R108). -/
theorem evalNets_word (markers : List Byte) (rom : List RomEntry) (line : Line) :
    (evalNets markers rom line).word = (resultOfLine markers rom line).toOption := by
  cases htoks : tokenize line with
  | nil => simp [evalNets, htoks, resultOfLine_of_no_token htoks, Except.toOption]
  | cons t ops =>
    cases hlook : romLookup rom (foldCase t) with
    | none => simp [evalNets, htoks, hlook, resultOfLine_of_miss htoks hlook, Except.toOption]
    | some e =>
      rw [resultOfLine_of_hit htoks hlook]
      by_cases hcount : ops.length = e.format.nops
      · cases hroute : route markers e.format ops <;>
          simp [evalNets, htoks, hlook, hcount, hroute, Option.filter, Except.toOption]
      · simp [evalNets, htoks, hlook, hcount, Except.toOption]

/-- A driven word net is the packing of the format, opcode and routed nets, which are driven then (R107, R108). -/
theorem evalNets_word_eq_pack {markers : List Byte} {rom : List RomEntry} {line : Line} {w : Word}
    (h : (evalNets markers rom line).word = some w) :
    ∃ fmt op f, (evalNets markers rom line).fmt = some fmt ∧ (evalNets markers rom line).op = some op ∧
      (evalNets markers rom line).routed = some f ∧ w = pack fmt op f := by
  obtain ⟨e, hcounted, hpacked⟩ := Option.bind_eq_some_iff.mp h
  obtain ⟨f, hrouted, hw⟩ := Option.map_eq_some_iff.mp hpacked
  obtain ⟨hentry, -⟩ := Option.filter_eq_some_iff.mp hcounted
  exact ⟨e.format, e.opcode, f, by simp [evalNets, hentry], by simp [evalNets, hentry], hrouted, hw.symm⟩

theorem okFlag_eq_isSome_toOption (r : Except EncodeError Word) : okFlag r = r.toOption.isSome := by
  cases r <;> rfl

theorem wordPort_of_toOption {r : Except EncodeError Word} {w : Word} (h : r.toOption = some w) :
    wordPort r = w := by
  cases r with
  | ok v => exact Option.some.inj h
  | error e => cases h

/-- Settles O47: the word net is the accepted word of the result that drives the ports. -/
theorem netsAgreeWithThePorts : Obligations.NetsAgreeWithThePorts := by
  intro p s t hstep nets
  obtain ⟨-, rfl⟩ := stepWith_eq_next_iff.mp hstep
  have hnet : nets.word = (resultOfLine p.regMarkers s.rom s.line).toOption := evalNets_word _ _ _
  refine ⟨?_, fun w hw => ⟨wordPort_of_toOption (hnet ▸ hw), evalNets_word_eq_pack hw⟩⟩
  rw [hnet, State.drive_ok, okFlag_eq_isSome_toOption]

end Sys2Proof.Machine
end

section
/-! SUPPORT. Where the packer puts the fields, the hex text and the bytes of a word, and what serving any lines answers
and writes (20_memory.md R41, R42, R45, R47, R48, R51; 40_encode_pipeline.md R108, R110). -/

namespace Sys2Proof.Machine

/-! ## The fields of a packed word -/

/-- A bit field of a word, as arithmetic on the word's value. -/
theorem extractLsb'_eq_of_toNat {k n : Nat} {w : Word} {x : BitVec n} (h : w.toNat / 2 ^ k % 2 ^ n = x.toNat) :
    w.extractLsb' k n = x :=
  BitVec.eq_of_toNat_eq (by rw [BitVec.extractLsb'_toNat, Nat.shiftRight_eq_div_pow, h])

/-- Every format but Halt has rs at 25:21. -/
theorem rsField_pack {fmt : Format} (hfmt : fmt ≠ .haltType) (op : Opcode) (f : Fields) :
    rsField (pack fmt op f) = f.rs := by
  apply extractLsb'_eq_of_toNat
  have hrs := f.rs.isLt
  have hrt := f.rt.isLt
  have hrd := f.rd.isLt
  have himm := f.imm16.isLt
  cases fmt with
  | rType => rw [pack_rType_toNat]; omega
  | iType => rw [pack_iType_toNat]; omega
  | jrType => rw [pack_jrType_toNat]; omega
  | haltType => exact absurd rfl hfmt

/-- The R and I formats have rt at 20:16. -/
theorem rtField_pack {fmt : Format} (hfmt : fmt = .rType ∨ fmt = .iType) (op : Opcode) (f : Fields) :
    rtField (pack fmt op f) = f.rt := by
  apply extractLsb'_eq_of_toNat
  have hrt := f.rt.isLt
  have hrd := f.rd.isLt
  have himm := f.imm16.isLt
  obtain rfl | rfl := hfmt
  · rw [pack_rType_toNat]; omega
  · rw [pack_iType_toNat]; omega

/-- The R format has rd at 15:11. -/
theorem rdField_pack_rType (op : Opcode) (f : Fields) : rdField (pack .rType op f) = f.rd := by
  apply extractLsb'_eq_of_toNat
  have hrd := f.rd.isLt
  rw [pack_rType_toNat]
  omega

/-- The I format has the immediate at 15:0. -/
theorem immField_pack_iType (op : Opcode) (f : Fields) : immField (pack .iType op f) = f.imm16 := by
  apply extractLsb'_eq_of_toNat
  have himm := f.imm16.isLt
  rw [pack_iType_toNat]
  omega

/-- Settles O16, field by field; the unused bits are those `unusedBitsZero` reads. -/
theorem packedFieldsStandAtTheirBits : Obligations.PackedFieldsStandAtTheirBits := fun op f =>
  ⟨⟨opField_pack .rType op f, rsField_pack (by decide) op f, rtField_pack (.inl rfl) op f, rdField_pack_rType op f,
      eq_of_beq (unusedBitsZero_pack .rType op f)⟩,
    ⟨opField_pack .iType op f, rsField_pack (by decide) op f, rtField_pack (.inr rfl) op f,
      immField_pack_iType op f⟩,
    ⟨opField_pack .jrType op f, rsField_pack (by decide) op f, eq_of_beq (unusedBitsZero_pack .jrType op f)⟩,
    ⟨opField_pack .haltType op f, eq_of_beq (unusedBitsZero_pack .haltType op f)⟩⟩

/-! ## The hex text and the bytes of a word -/

/-- A bit field of a bit field is a bit field. -/
theorem extractLsb'_extractLsb' {n i j k l : Nat} (x : BitVec n) (h : i + j ≤ l) :
    (x.extractLsb' k l).extractLsb' i j = x.extractLsb' (k + i) j := by
  ext p hp
  have hl : i + p < l := by omega
  simp [hl, Nat.add_assoc]

/-- The big-endian bytes make the word's value (R42). -/
theorem foldl_wordBytes (w : Word) : (wordBytes w).foldl (fun n b => 256 * n + b.toNat) 0 = w.toNat := by
  have hw := w.isLt
  simp only [wordBytes, List.foldl_cons, List.foldl_nil, BitVec.extractLsb'_toNat, Nat.shiftRight_eq_div_pow]
  omega

theorem wordBytes_injective : Function.Injective wordBytes := fun v w h =>
  BitVec.eq_of_toNat_eq (by rw [← foldl_wordBytes v, ← foldl_wordBytes w, h])

/-- The 16 digits are distinct. -/
theorem hexDigit_injective : Function.Injective hexDigit := by decide

/-- The two digits of a byte, high nibble first. -/
def byteHex (b : Byte) : List Byte := [hexDigit (b.extractLsb' 4 4), hexDigit (b.extractLsb' 0 4)]

theorem byteHex_injective : Function.Injective byteHex := by
  intro a b h
  have hnibbles (c : Byte) : c.extractLsb' 4 4 ++ c.extractLsb' 0 4 = c :=
    (BitVec.extractLsb'_append_extractLsb'_eq_extractLsb' rfl).trans BitVec.extractLsb'_eq_self
  obtain ⟨hhi, hlo⟩ : a.extractLsb' 4 4 = b.extractLsb' 4 4 ∧ a.extractLsb' 0 4 = b.extractLsb' 0 4 := by
    simpa [byteHex, hexDigit_injective.eq_iff] using h
  rw [← hnibbles a, hhi, hlo, hnibbles]

/-- The hex text of any bytes determines them: every byte has two digits. -/
theorem flatMap_byteHex_injective : Function.Injective (List.flatMap byteHex) := by
  intro as bs h
  induction as generalizing bs with
  | nil =>
    cases bs with
    | nil => rfl
    | cons b bs => simp [byteHex] at h
  | cons a as ih =>
    cases bs with
    | nil => simp [byteHex] at h
    | cons b bs =>
      obtain ⟨hhead, htail⟩ := List.append_inj h rfl
      rw [byteHex_injective hhead, ih htail]

/-- The rendering is the word's bytes, two digits each (R42, R110). -/
theorem renderHex_eq_flatMap (w : Word) : renderHex w = (wordBytes w).flatMap byteHex := by
  simp [renderHex, wordBytes, byteHex, extractLsb'_extractLsb']

theorem renderHex_injective : Function.Injective renderHex := by
  rw [show renderHex = List.flatMap byteHex ∘ wordBytes from funext renderHex_eq_flatMap]
  exact flatMap_byteHex_injective.comp wordBytes_injective

/-- Settles O20: the bytes make the word, and their digits are distinct. -/
theorem hexDeterminesTheWord : Obligations.HexDeterminesTheWord :=
  ⟨fun _ _ h => renderHex_injective h, fun w => ⟨foldl_wordBytes w, renderHex_eq_flatMap w⟩⟩

/-! ## Answers -/

/-- The answer that shows a result on the output ports (R27, R112). -/
def Response.ofResult (r : Except EncodeError Word) : Response :=
  { ok := okFlag r, err := errFlag r, word := wordPort r, hex := renderHex (wordPort r) }

@[simp] theorem State.response_drive (r : Except EncodeError Word) (s : State) :
    (s.drive r).response = .ofResult r := rfl

theorem SameAnswer.refl (r : Response) : SameAnswer r r := ⟨rfl, rfl, fun _ => ⟨rfl, rfl⟩⟩

/-- A request presents the line and drives its result. -/
theorem request_next (l : Line) (s : State) :
    request l s = .next ((s.present l).drive (resultOfLine Config.regMarkers s.rom l)) :=
  step_next _

/-- Settles O39: the driven result depends on the ROM and the line alone, and a step leaves both. -/
theorem sameLineSameAnswer : Obligations.SameLineSameAnswer := by
  refine ⟨fun s s' hrom hline => ?_, fun s t h => ?_⟩
  · refine ⟨_, _, step_next s, step_next s', ?_, s.drive_sameInputs _, s'.drive_sameInputs _⟩
    rw [State.response_drive, State.response_drive, hrom, hline]
    exact .refl _
  · rw [step_eq_next_iff.mp h]
    exact ⟨_, step_next _, .refl _⟩

/-! ## Serving lines -/

/-- Serving any lines completes with the answer to each line's own result, and leaves the ROM (R45, R47). -/
theorem serve_next (ls : List Line) (s : State) : ∃ u, u.rom = s.rom ∧
    serve ls s = .next (u, ls.map fun l => .ofResult (resultOfLine Config.regMarkers s.rom l)) := by
  induction ls generalizing s with
  | nil => exact ⟨s, rfl, rfl⟩
  | cons l ls ih =>
    obtain ⟨u, hrom, hserve⟩ := ih ((s.present l).drive (resultOfLine Config.regMarkers s.rom l))
    exact ⟨u, hrom, serve_cons_eq_next_iff.mpr ⟨_, _, request_next l s, hserve, rfl⟩⟩

/-- With the ROM loaded the results are those of `encode(line)`. -/
theorem serve_next_of_romLoaded (ls : List Line) {s : State} (h : s.RomLoaded) :
    ∃ u : State, u.RomLoaded ∧ serve ls s = .next (u, (ls.map encodeLine).map .ofResult) := by
  obtain ⟨u, hrom, hserve⟩ := serve_next ls s
  refine ⟨u, hrom.trans h, ?_⟩
  rw [hserve, List.map_map, h]
  simp only [resultOfLine_opcodeTable]
  rfl

/-- Settles O40: a line's answer shows its result on the ROM, whichever block serves it. -/
theorem requestsAreIndependent : Obligations.RequestsAreIndependent := by
  intro ls s s' hrom
  obtain ⟨u, -, hserve⟩ := serve_next ls s
  refine ⟨u, _, hserve, ?_⟩
  rw [List.forall₂_map_right_iff, List.forall₂_same, hrom]
  exact fun l _ => ⟨_, request_next l s', .refl _⟩

/-! ## The caller's file -/

/-- The file holds the hex text of each accepted result, in order (R48, R51). -/
theorem outputFile_map_ofResult (results : List (Except EncodeError Word)) :
    outputFile (results.map .ofResult) = (results.filterMap Except.toOption).map renderHex := by
  induction results with
  | nil => rfl
  | cons r results ih =>
    cases r with
    | error e => exact ih
    | ok w => exact congrArg (renderHex w :: ·) ih

/-- Settles O41: the answers served are those of the lines' encodings. -/
theorem outputFileHoldsTheAcceptedLinesInOrder : Obligations.OutputFileHoldsTheAcceptedLinesInOrder := by
  intro ls s u rs hrom hserve
  obtain ⟨v, -, hv⟩ := serve_next_of_romLoaded ls hrom
  cases hv.symm.trans hserve
  rw [outputFile_map_ofResult, List.filterMap_map]
  rfl

theorem runCaller_of_serve {ls : List Line} {s u : State} {rs : List Response}
    (h : serve (presentedLines ls) s = .next (u, rs)) (fmt : FileFormat) :
    runCaller fmt ls s = .next (u, outputBytes fmt rs) := by
  rw [runCaller, h]

/-- Lines without a sentinel are all presented. -/
theorem presentedLines_eq_self {ls : List Line} (h : ∀ l ∈ ls, isSentinel l = false) : presentedLines ls = ls :=
  List.takeWhile_eq_self_iff.mpr fun l hl => by rw [h l hl]; rfl

/-- The first sentinel ends the presented lines (R183). -/
theorem presentedLines_append_sentinel {pre : List Line} {q : Line} (hq : isSentinel q = true)
    (hpre : ∀ l ∈ pre, isSentinel l = false) (post : List Line) : presentedLines (pre ++ q :: post) = pre := by
  rw [presentedLines, List.takeWhile_append_of_pos fun l hl => by rw [hpre l hl]; rfl,
    List.takeWhile_cons_of_neg (by simp [hq]), List.append_nil]

/-- A run of the caller depends on the presented lines alone. -/
theorem runCaller_congr {ls ls' : List Line} (h : presentedLines ls = presentedLines ls') (fmt : FileFormat)
    (s : State) : runCaller fmt ls s = runCaller fmt ls' s := by
  rw [runCaller, runCaller, h]

/-- Settles O42: the file's lines are those of O41 with the newline, and the sentinel ends the presented lines. -/
theorem callerWritesNewlineTerminatedHexLines : Obligations.CallerWritesNewlineTerminatedHexLines := by
  refine fun fmt s hrom => ⟨fun ls => ?_, fun pre q post hq hpre => ?_⟩
  · obtain ⟨u, hu, hserve⟩ := serve_next_of_romLoaded (presentedLines ls) hrom
    refine ⟨u, hu, ?_⟩
    rw [runCaller_of_serve hserve, outputBytes, outputFileHoldsTheAcceptedLinesInOrder _ s u _ hrom hserve,
      List.flatMap_map]
    rfl
  · have hpres : presentedLines (pre ++ q :: post) = pre := presentedLines_append_sentinel hq hpre post
    exact ⟨hpres, runCaller_congr (hpres.trans (presentedLines_eq_self hpre).symm) fmt s⟩

end Sys2Proof.Machine
end

section
/-! SUPPORT. Words and the test decoder (40_encode_pipeline.md R115), the words the block produces (30_encoding.md R66,
R70 to R72), and the parts of a line that do not matter: the mnemonic's letter case (R75) and the white space around its
tokens (R74). -/

namespace Sys2Proof

/-! ## White space in a line -/

theorem closeRun_append (run : Token) (ts us : List Token) :
    closeRun run (ts ++ us) = closeRun run ts ++ us := by
  cases run <;> rfl

/-- A WS byte ends the run before it, so the parts of the line on its two sides are split apart (R74). -/
theorem splitRun_append_cons_ws {b : Byte} (hb : isWs b = true) (a l : Line) :
    splitRun (a ++ b :: l) = ((splitRun a).1, (splitRun a).2 ++ tokenize l) := by
  induction a with
  | nil => exact splitRun_cons_ws hb l
  | cons c a ih =>
    rw [List.cons_append]
    cases hc : isWs c with
    | true =>
      have htoks : tokenize (a ++ b :: l) = tokenize a ++ tokenize l := by
        rw [tokenize, ih, closeRun_append, ← tokenize]
      rw [splitRun_cons_ws hc, splitRun_cons_ws hc, htoks]
    | false => rw [splitRun_cons_nonWs hc, splitRun_cons_nonWs hc, ih]

/-- The tokens of a line are those before and those after any of its WS bytes (R101). -/
theorem tokenize_append_cons_ws {b : Byte} (hb : isWs b = true) (a l : Line) :
    tokenize (a ++ b :: l) = tokenize a ++ tokenize l := by
  rw [tokenize, splitRun_append_cons_ws hb, closeRun_append, ← tokenize]

theorem tokenize_ws_append {ws : Line} (h : ∀ b ∈ ws, isWs b = true) (l : Line) :
    tokenize (ws ++ l) = tokenize l := by
  induction ws with
  | nil => rfl
  | cons b ws ih =>
    obtain ⟨hb, hws⟩ := List.forall_mem_cons.mp h
    rw [List.cons_append, tokenize_cons_ws hb, ih hws]

theorem tokenize_ws {ws : Line} (h : ∀ b ∈ ws, isWs b = true) : tokenize ws = [] := by
  rw [← List.append_nil ws, tokenize_ws_append h]
  rfl

theorem tokenize_append_ws {ws : Line} (h : ∀ b ∈ ws, isWs b = true) (l : Line) :
    tokenize (l ++ ws) = tokenize l := by
  cases ws with
  | nil => rw [List.append_nil]
  | cons b ws =>
    obtain ⟨hb, hws⟩ := List.forall_mem_cons.mp h
    rw [tokenize_append_cons_ws hb, tokenize_ws hws, List.append_nil]

/-! ## What of a line the front end reads -/

/-- A line decodes by its tokens alone (R101). -/
theorem decodeLine_congr_tokenize {l l' : Line} (h : tokenize l = tokenize l') (rom : List RomEntry) :
    decodeLine rom l = decodeLine rom l' := by
  rw [decodeLine, decodeLine, h]

/-- A line decodes by its first token folded and the other tokens (R75, R102). -/
theorem decodeLine_congr_foldCase {l l' : Line} {t t' : Token} {ops : List Token} (hl : tokenize l = t :: ops)
    (hl' : tokenize l' = t' :: ops) (h : foldCase t = foldCase t') (rom : List RomEntry) :
    decodeLine rom l = decodeLine rom l' := by
  simp only [decodeLine, hl, hl', h]

end Sys2Proof

namespace Sys2Proof.Machine

/-- Two lines that decode alike on a state's ROM are answered alike. -/
theorem request_sameAnswer_of_decodeLine_eq {s : State} {l l' : Line}
    (h : decodeLine s.rom l = decodeLine s.rom l') :
    ∃ u u', request l s = .next u ∧ request l' s = .next u' ∧ SameAnswer u.response u'.response := by
  refine ⟨_, _, request_next l s, request_next l' s, ?_⟩
  rw [State.response_drive, State.response_drive, resultOfLine, resultOfLine, h]
  exact .refl _

/-- Settles O9: the front end reads the first token folded and the other tokens as they are. -/
theorem mnemonicLetterCaseIsIgnored : Obligations.MnemonicLetterCaseIsIgnored := by
  refine ⟨fun s l l' t t' ops hl hl' hfold => ?_, fun rom l i hdec => ?_⟩
  · exact request_sameAnswer_of_decodeLine_eq (decodeLine_congr_foldCase hl hl' hfold s.rom)
  · obtain ⟨t, ops, e, htoks, -, rfl⟩ := decodeLine_eq_ok_iff.mp hdec
    rw [Instr.operands_ofMnemonic, htoks, List.tail_cons]

/-- Settles O10: WS bytes around a line leave its tokens as they are. -/
theorem surroundingWhiteSpaceIsIgnored : Obligations.SurroundingWhiteSpaceIsIgnored := by
  intro s pre l post hpre hpost
  have htoks : tokenize (pre ++ l ++ post) = tokenize l := by
    rw [tokenize_append_ws hpost, tokenize_ws_append hpre]
  exact request_sameAnswer_of_decodeLine_eq (decodeLine_congr_tokenize htoks s.rom)

/-! ## Words and the test decoder -/

/-- The opcodes of R21 are distinct: each entry of the ROM is the one its opcode finds. -/
theorem find?_opcode_of_mem_opcodeTable {e : RomEntry} (he : e ∈ opcodeTable) :
    opcodeTable.find? (fun e' => e'.opcode == e.opcode) = some e := by
  have rows : ∀ e ∈ opcodeTable, opcodeTable.find? (fun e' => e'.opcode == e.opcode) = some e := by decide
  exact rows e he

/-- A word decodes exactly when some entry of the ROM has its opcode and its unused bits are 0: to that entry's
instruction with the word's fields, in canonical spelling (R115). -/
theorem decodeWordWith_eq_ok_iff {m : Byte} {w : Word} {i : Instr} :
    decodeWordWith m w = .ok i ↔
      ∃ e ∈ opcodeTable, e.opcode = opField w ∧ unusedBitsZero e.format w = true ∧
        i = Instr.ofMnemonic e.mnemonic (canonicalOperands m e.format (wordFields w)) := by
  constructor
  · intro h
    unfold decodeWordWith at h
    split at h
    · cases h
    · next e hfind =>
      split at h
      · next hunused =>
        cases h
        exact ⟨e, List.mem_of_find?_eq_some hfind, by simpa using List.find?_some hfind, hunused, rfl⟩
      · cases h
  · rintro ⟨e, he, hop, hunused, rfl⟩
    simp [decodeWordWith, ← hop, find?_opcode_of_mem_opcodeTable he, hunused]

/-- A word decodes, with any marker, exactly when it is a word of the opcode table. -/
theorem exists_decodeWordWith_iff (m : Byte) (w : Word) : (∃ i, decodeWordWith m w = .ok i) ↔ TableWord w := by
  simp only [decodeWordWith_eq_ok_iff, TableWord]
  constructor
  · rintro ⟨-, e, he, hop, hunused, -⟩
    exact ⟨e, he, hop, hunused⟩
  · rintro ⟨e, he, hop, hunused⟩
    exact ⟨_, e, he, hop, hunused, rfl⟩

/-- Packing the fields read from a word gives the word, where its unused bits are 0 (R108, R115). -/
theorem pack_wordFields {fmt : Format} {w : Word} (h : unusedBitsZero fmt w = true) :
    pack fmt (opField w) (wordFields w) = w := by
  have hw := w.isLt
  apply BitVec.eq_of_toNat_eq
  cases fmt with
  | rType =>
    have hlow : w.toNat % 2 ^ 11 = 0 := by simpa using congrArg BitVec.toNat (eq_of_beq h)
    simp only [pack_rType_toNat, opField, wordFields, rsField, rtField, rdField, BitVec.extractLsb'_toNat,
      Nat.shiftRight_eq_div_pow]
    omega
  | iType =>
    simp only [pack_iType_toNat, opField, wordFields, rsField, rtField, immField, BitVec.extractLsb'_toNat,
      Nat.shiftRight_eq_div_pow]
    omega
  | jrType =>
    have hlow : w.toNat % 2 ^ 21 = 0 := by simpa using congrArg BitVec.toNat (eq_of_beq h)
    simp only [pack_jrType_toNat, opField, wordFields, rsField, BitVec.extractLsb'_toNat,
      Nat.shiftRight_eq_div_pow]
    omega
  | haltType =>
    have hlow : w.toNat % 2 ^ 26 = 0 := by simpa using congrArg BitVec.toNat (eq_of_beq h)
    simp only [pack_haltType_toNat, opField, BitVec.extractLsb'_toNat, Nat.shiftRight_eq_div_pow]
    omega

/-- The fields a format has are read from the packed word as they were packed. -/
theorem canonicalOperands_wordFields_pack (m : Byte) (fmt : Format) (op : Opcode) (f : Fields) :
    canonicalOperands m fmt (wordFields (pack fmt op f)) = canonicalOperands m fmt f := by
  cases fmt with
  | rType => simp [canonicalOperands, wordFields, rsField_pack, rtField_pack, rdField_pack_rType]
  | iType => simp [canonicalOperands, wordFields, rsField_pack, rtField_pack, immField_pack_iType]
  | jrType => simp [canonicalOperands, wordFields, rsField_pack]
  | haltType => rfl

/-- A word packed on an entry of the ROM decodes to that entry's instruction with the fields packed. -/
theorem decodeWordWith_pack (m : Byte) {e : RomEntry} (he : e ∈ opcodeTable) (f : Fields) :
    decodeWordWith m (pack e.format e.opcode f) =
      .ok (Instr.ofMnemonic e.mnemonic (canonicalOperands m e.format f)) :=
  decodeWordWith_eq_ok_iff.mpr ⟨e, he, (opField_pack _ _ f).symm, unusedBitsZero_pack _ _ f,
    by rw [canonicalOperands_wordFields_pack]⟩

/-- An entry's instruction with canonical operands, spelled with a marker of the set, has the word packed from their
fields. -/
theorem encodeWith_canonical {markers : List Byte} {m : Byte} (hm : m ∈ markers) {e : RomEntry}
    (he : e ∈ opcodeTable) (f : Fields) :
    encodeWith markers (Instr.ofMnemonic e.mnemonic (canonicalOperands m e.format f)) =
      .ok (pack e.format e.opcode f) := by
  rw [encodeWith_ofMnemonic he, formatWord_eq_route_pack, if_pos (length_canonicalOperands m e.format f),
    route_canonicalOperands hm]

/-- The word of an instruction is packed from some fields on the ROM entry of its mnemonic. -/
theorem exists_pack_of_encodeWith {markers : List Byte} {i : Instr} {w : Word} (h : encodeWith markers i = .ok w) :
    ∃ e ∈ opcodeTable, e.mnemonic = i.mnemonic ∧ ∃ f, w = pack e.format e.opcode f := by
  obtain ⟨e, hhit, he, hm⟩ := romRow i
  refine ⟨e, he, hm, ?_⟩
  rw [← resultAs_opcodeTable, resultAs_of_hit hhit] at h
  split at h
  · obtain ⟨f, -, hf⟩ := map_eq_ok_iff.mp h
    exact ⟨f, hf.symm⟩
  · cases h

/-- The instruction a word decodes to is well-formed and has that word, under any marker set that holds the
decoder's marker. -/
theorem decodeWordWith_sound {markers : List Byte} {m : Byte} (hm : m ∈ markers) (hws : isWs m = false) {w : Word}
    {i : Instr} (h : decodeWordWith m w = .ok i) : WellFormed i = true ∧ encodeWith markers i = .ok w := by
  obtain ⟨e, he, hop, hunused, rfl⟩ := decodeWordWith_eq_ok_iff.mp h
  constructor
  · exact wellFormed_iff.mpr fun t ht => isToken_of_mem_canonicalOperands hws (by simpa using ht)
  · rw [encodeWith_canonical hm he, hop, pack_wordFields hunused]

theorem decodeWord_sound {w : Word} {i : Instr} (h : decodeWord w = .ok i) :
    WellFormed i = true ∧ encode i = .ok w :=
  decodeWordWith_sound canonicalMarker_mem (by decide) h

/-- Settles O6: packing the fields read from a table word gives it back, and an instruction's word, packed on the ROM
entry of its mnemonic, decodes on that entry. -/
theorem wordsDecodeAndEncodeAgree : Obligations.WordsDecodeAndEncodeAgree := by
  refine ⟨exists_decodeWordWith_iff Config.canonicalMarker, fun w i h => decodeWord_sound h, fun i w h => ?_⟩
  obtain ⟨e, he, hmn, f, rfl⟩ := exists_pack_of_encodeWith h
  have hdec := decodeWordWith_pack Config.canonicalMarker he f
  exact ⟨_, hdec, by rw [Instr.mnemonic_ofMnemonic, hmn], (decodeWord_sound hdec).2⟩

/-! ## The words the block produces -/

/-- With the ROM loaded, an accepting step drives a table word (R72). -/
theorem tableWord_of_step {s t : State} (hrom : s.RomLoaded) (hstep : step s = .next t) (hok : t.ok = true) :
    TableWord t.word := by
  obtain rfl := step_eq_next_iff.mp hstep
  obtain ⟨-, ⟨-, -, -, hw⟩ | ⟨hno, -⟩⟩ := State.inv_drive_resultOfLine hrom Config.regMarkers s.line
  · exact hw
  · rw [hok] at hno
    cases hno

/-- With the ROM loaded, the line of a well-formed instruction is answered by the instruction's own rule. -/
theorem request_toLine {s : State} (hrom : s.RomLoaded) {i : Instr} (hwf : WellFormed i = true) :
    request i.toLine s = .next ((s.present i.toLine).drive (encode i)) := by
  rw [request_next, hrom, resultOfLine_of_decodeLine (decodeLine_toLine hwf), resultAs_opcodeTable, encode]

/-- Settles O35: the canonical line of the instruction a table word decodes to is answered with the word. -/
theorem producedWordsAreExactlyTheTableWords : Obligations.ProducedWordsAreExactlyTheTableWords := by
  intro w
  constructor
  · rintro ⟨s, t, hrom, hstep, hok, rfl⟩
    exact tableWord_of_step hrom hstep hok
  · intro hw
    obtain ⟨i, hdec⟩ := (exists_decodeWordWith_iff Config.canonicalMarker w).mpr hw
    obtain ⟨hwf, henc⟩ := decodeWord_sound hdec
    have hrom : State.reset.RomLoaded := rfl
    have hreq := request_toLine hrom hwf
    rw [henc] at hreq
    exact ⟨State.reset.present i.toLine, _, hrom, hreq, rfl, rfl⟩

/-- Settles O36: a produced word has the opcode of a ROM entry, and those are 0 to 17. -/
theorem unassignedOpcodesAreNeverProduced : Obligations.UnassignedOpcodesAreNeverProduced := by
  intro s t hrom hstep hok
  obtain ⟨e, he, hop, -⟩ := tableWord_of_step hrom hstep hok
  have hrows : ∀ e ∈ opcodeTable, e.opcode.toNat ≤ 17 := by decide
  calc (opField t.word).toNat = e.opcode.toNat := by rw [hop]
    _ ≤ 17 := hrows e he

/-- Settles O37, row by row. -/
theorem opcodeMapGivesTheFormats : Obligations.OpcodeMapGivesTheFormats := by
  unfold Obligations.OpcodeMapGivesTheFormats
  decide

end Sys2Proof.Machine
end

section
/-! SUPPORT. The stages of one evaluation and which of them decides its answer: operand parsers, field router, packer,
renderer (40_encode_pipeline.md R101 to R116). -/

namespace Sys2Proof.Machine

/-! ## The operand parsers -/

/-- What ParseReg rejects, and how: shape before range (R76, R104). -/
theorem parseReg_eq_error_iff {markers : List Byte} {t : Token} {e : EncodeError} :
    parseReg markers t = .error e ↔
      (¬RegisterToken markers t ∧ e = .malformedOperands) ∨
      (RegisterToken markers t ∧ 31 < dec t.tail ∧ e = .invalidRegister) := by
  rw [← regShaped_iff]
  obtain ⟨hs, hp⟩ | ⟨hs, hgt, hp⟩ | ⟨hs, hle, hp⟩ := parseReg_cases markers t
  · simp [hs, hp, eq_comm]
  · simp [hs, hp, hgt, eq_comm]
  · simp [hs, hp, hle]

/-- A register token with an index up to 31 parses to that index (R104). -/
theorem parseReg_of_registerToken {markers : List Byte} {t : Token} (ht : RegisterToken markers t)
    (hle : dec t.tail ≤ 31) : parseReg markers t = .ok (BitVec.ofNat 5 (dec t.tail)) := by
  rw [parseReg, (regShaped_iff markers t).mpr ht, if_neg (by decide), if_neg (by omega)]

/-- Settles O12: the two rejections, and an index up to 31 fits in the 5 bits of a register field. -/
theorem registerTokensParseByShapeThenRange : Obligations.RegisterTokensParseByShapeThenRange := by
  refine fun markers t => ⟨fun hbad => ?_, fun ht hgt => ?_, fun ht hle => ?_⟩
  · exact parseReg_eq_error_iff.mpr (.inl ⟨hbad, rfl⟩)
  · exact parseReg_eq_error_iff.mpr (.inr ⟨ht, hgt, rfl⟩)
  · refine ⟨_, parseReg_of_registerToken ht hle, ?_⟩
    rw [BitVec.toNat_ofNat]
    omega

/-- ParseImm rejects exactly what is no immediate token (R105). -/
theorem parseImm_eq_error_iff {t : Token} {e : EncodeError} :
    parseImm t = .error e ↔ (¬∃ v, ImmediateToken t v) ∧ e = .malformedOperands := by
  rw [← immShaped_eq_false_iff]
  obtain ⟨hs, hp⟩ | ⟨hs, hp⟩ := parseImm_cases t
  · simp [hs, hp, eq_comm]
  · simp [hs, hp]

/-- ParseImm gives an immediate token's value reduced to 16 bits (R105). -/
theorem parseImm_eq_ok_iff {t : Token} {imm : Imm16} :
    parseImm t = .ok imm ↔ ∃ v, ImmediateToken t v ∧ imm = low16 v := by
  simp only [← immShaped_iff]
  obtain ⟨hs, hp⟩ | ⟨hs, hp⟩ := parseImm_cases t
  · simp [hs, hp]
  · simp [hs, hp, eq_comm]

/-- Settles O13: the value reduced to 16 bits is the value mod 65536. -/
theorem immediateTokensParseModulo65536 : Obligations.ImmediateTokensParseModulo65536 := fun _ =>
  ⟨fun v hv => ⟨low16 v, parseImm_eq_ok_iff.mpr ⟨v, hv, rfl⟩, low16_toNat v⟩,
    fun hbad => parseImm_eq_error_iff.mpr ⟨hbad, rfl⟩⟩

/-- The reduction is the two's-complement pattern of any integer. -/
theorem low16_eq_ofInt (v : Int) : low16 v = BitVec.ofInt 16 v := by
  apply BitVec.eq_of_toNat_eq
  have hlow := low16_toNat v
  rw [BitVec.toNat_ofInt]
  omega

/-- Settles O14: the reduction is the remainder mod 65536, evaluated on the two ranges and the eight values. -/
theorem immediateReductionLaw : Obligations.ImmediateReductionLaw := by
  refine ⟨low16_toNat, fun v hlo hhi => ⟨low16_eq_ofInt v, ?_⟩, fun v hlo hhi => ?_, by decide⟩
  · rw [low16_toNat]
    omega
  · rw [low16_toNat]
    omega

/-! ## The field router -/

section Routing

variable {markers : List Byte} {ops : List Token}

/-- Operands whose slots parse are routed to the fields of their format, slot by slot (R78, R107). -/
theorem route_rType_of_parse {rd rs rt : RegIndex} (h0 : parseReg markers (slot ops 0) = .ok rd)
    (h1 : parseReg markers (slot ops 1) = .ok rs) (h2 : parseReg markers (slot ops 2) = .ok rt) :
    route markers .rType ops = .ok { rs := rs, rt := rt, rd := rd, imm16 := 0#16 } := by
  rw [route, h0, h1, h2]
  rfl

theorem route_iType_of_parse {rt rs : RegIndex} {imm : Imm16} (h0 : parseReg markers (slot ops 0) = .ok rt)
    (h1 : parseReg markers (slot ops 1) = .ok rs) (h2 : parseImm (slot ops 2) = .ok imm) :
    route markers .iType ops = .ok { rs := rs, rt := rt, rd := 0#5, imm16 := imm } := by
  rw [route, h0, h1, h2]
  rfl

theorem route_jrType_of_parse {rs : RegIndex} (h0 : parseReg markers (slot ops 0) = .ok rs) :
    route markers .jrType ops = .ok { rs := rs, rt := 0#5, rd := 0#5, imm16 := 0#16 } := by
  rw [route, h0]
  rfl

/-- The fields the router gives are the values its format's slots parse to (R78, R107). -/
theorem route_rType_eq_ok {f : Fields} (h : route markers .rType ops = .ok f) :
    parseReg markers (slot ops 0) = .ok f.rd ∧ parseReg markers (slot ops 1) = .ok f.rs ∧
      parseReg markers (slot ops 2) = .ok f.rt := by
  simp only [route, bind_eq_ok_iff] at h
  obtain ⟨rd, h0, rs, h1, rt, h2, hf⟩ := h
  cases hf
  exact ⟨h0, h1, h2⟩

theorem route_iType_eq_ok {f : Fields} (h : route markers .iType ops = .ok f) :
    parseReg markers (slot ops 0) = .ok f.rt ∧ parseReg markers (slot ops 1) = .ok f.rs ∧
      parseImm (slot ops 2) = .ok f.imm16 := by
  simp only [route, bind_eq_ok_iff] at h
  obtain ⟨rt, h0, rs, h1, imm, h2, hf⟩ := h
  cases hf
  exact ⟨h0, h1, h2⟩

theorem route_jrType_eq_ok {f : Fields} (h : route markers .jrType ops = .ok f) :
    parseReg markers (slot ops 0) = .ok f.rs := by
  simp only [route, bind_eq_ok_iff] at h
  obtain ⟨rs, h0, hf⟩ := h
  cases hf
  exact h0

end Routing

/-- Settles O15, format by format. -/
theorem fieldRouterFollowsTheFormat : Obligations.FieldRouterFollowsTheFormat := fun _ _ _ _ _ _ =>
  ⟨route_rType_of_parse, route_iType_of_parse, route_jrType_of_parse, rfl⟩

/-! ## The slots of a line -/

/-- A slot fails with the error its parser raises: a register slot with ParseReg's, slot 2 of an I-type line with
ParseImm's (R111). -/
theorem slotFails_iff {markers : List Byte} {fmt : Format} {ops : List Token} {k : Nat} {e : EncodeError} :
    SlotFails markers fmt ops k e ↔
      if k < registerSlots fmt then parseReg markers (slot ops k) = .error e
      else fmt = .iType ∧ k = 2 ∧ parseImm (slot ops 2) = .error e := by
  rw [SlotFails, parseReg_eq_error_iff, parseImm_eq_error_iff]

theorem exists_ok_of_forall_ne_error {ε α : Type} {x : Except ε α} (h : ∀ e, x ≠ .error e) : ∃ a, x = .ok a := by
  cases x with
  | error e => exact absurd rfl (h e)
  | ok a => exact ⟨a, rfl⟩

section Slots

variable {markers : List Byte} {fmt : Format} {ops : List Token}

/-- A register slot that does not fail parses. -/
theorem exists_parseReg_of_not_slotFails {k : Nat} (hk : k < registerSlots fmt)
    (h : ∀ e, ¬SlotFails markers fmt ops k e) : ∃ r, parseReg markers (slot ops k) = .ok r :=
  exists_ok_of_forall_ne_error fun e he => h e (slotFails_iff.mpr (by rwa [if_pos hk]))

/-- The immediate slot that does not fail parses. -/
theorem exists_parseImm_of_not_slotFails (h : ∀ e, ¬SlotFails markers .iType ops 2 e) :
    ∃ imm, parseImm (slot ops 2) = .ok imm :=
  exists_ok_of_forall_ne_error fun e he => h e (slotFails_iff.mpr ⟨rfl, rfl, he⟩)

/-- Where no slot fails the router gives fields. -/
theorem exists_route_of_no_slotFails (h : ∀ k e, ¬SlotFails markers fmt ops k e) :
    ∃ f, route markers fmt ops = .ok f := by
  have hreg (k : Nat) (hk : k < registerSlots fmt) : ∃ r, parseReg markers (slot ops k) = .ok r :=
    exists_parseReg_of_not_slotFails hk (h k)
  cases fmt with
  | rType =>
    obtain ⟨rd, h0⟩ := hreg 0 (by decide)
    obtain ⟨rs, h1⟩ := hreg 1 (by decide)
    obtain ⟨rt, h2⟩ := hreg 2 (by decide)
    exact ⟨_, route_rType_of_parse h0 h1 h2⟩
  | iType =>
    obtain ⟨rt, h0⟩ := hreg 0 (by decide)
    obtain ⟨rs, h1⟩ := hreg 1 (by decide)
    obtain ⟨imm, h2⟩ := exists_parseImm_of_not_slotFails (h 2)
    exact ⟨_, route_iType_of_parse h0 h1 h2⟩
  | jrType =>
    obtain ⟨rs, h0⟩ := hreg 0 (by decide)
    exact ⟨_, route_jrType_of_parse h0⟩
  | haltType => exact ⟨_, rfl⟩

/-- The first failing slot decides the router's error (R111). -/
theorem route_eq_error_of_first_slotFails {k : Nat} {e : EncodeError} (hk : SlotFails markers fmt ops k e)
    (hlow : ∀ j < k, ∀ e', ¬SlotFails markers fmt ops j e') : route markers fmt ops = .error e := by
  have hreg (j : Nat) (hj : j < k) (hr : j < registerSlots fmt) : ∃ r, parseReg markers (slot ops j) = .ok r :=
    exists_parseReg_of_not_slotFails hr (hlow j hj)
  rw [slotFails_iff] at hk
  split at hk
  · next hr =>
    cases fmt with
    | rType =>
      obtain rfl | rfl | rfl : k = 0 ∨ k = 1 ∨ k = 2 := by rw [registerSlots] at hr; omega
      · rw [route, hk]
        rfl
      · obtain ⟨rd, h0⟩ := hreg 0 (by decide) (by decide)
        rw [route, h0, hk]
        rfl
      · obtain ⟨rd, h0⟩ := hreg 0 (by decide) (by decide)
        obtain ⟨rs, h1⟩ := hreg 1 (by decide) (by decide)
        rw [route, h0, h1, hk]
        rfl
    | iType =>
      obtain rfl | rfl : k = 0 ∨ k = 1 := by rw [registerSlots] at hr; omega
      · rw [route, hk]
        rfl
      · obtain ⟨rt, h0⟩ := hreg 0 (by decide) (by decide)
        rw [route, h0, hk]
        rfl
    | jrType =>
      obtain rfl : k = 0 := by rw [registerSlots] at hr; omega
      rw [route, hk]
      rfl
    | haltType => exact absurd hr (Nat.not_lt_zero k)
  · obtain ⟨rfl, rfl, himm⟩ := hk
    obtain ⟨rt, h0⟩ := hreg 0 (by decide) (by decide)
    obtain ⟨rs, h1⟩ := hreg 1 (by decide) (by decide)
    rw [route, h0, h1, himm]
    rfl

end Slots

/-! ## The packer and the renderer -/

/-- The packed word's value is the assembled value: each field of the concatenation shifted to its place (R108). -/
theorem pack_toNat (fmt : Format) (op : Opcode) (f : Fields) : (pack fmt op f).toNat = assembledValue fmt op f := by
  cases fmt with
  | rType =>
    show (op ++ f.rs ++ f.rt ++ f.rd ++ 0#11 : BitVec (6 + 5 + 5 + 5 + 11)).toNat =
      op.toNat <<< 26 ||| f.rs.toNat <<< 21 ||| f.rt.toNat <<< 16 ||| f.rd.toNat <<< 11
    simp only [BitVec.toNat_append, Nat.shiftLeft_or_distrib, ← Nat.shiftLeft_add, BitVec.toNat_ofNat,
      Nat.zero_mod, Nat.or_zero]
  | iType =>
    show (op ++ f.rs ++ f.rt ++ f.imm16 : BitVec (6 + 5 + 5 + 16)).toNat =
      op.toNat <<< 26 ||| f.rs.toNat <<< 21 ||| f.rt.toNat <<< 16 ||| f.imm16.toNat
    simp only [BitVec.toNat_append, Nat.shiftLeft_or_distrib, ← Nat.shiftLeft_add]
  | jrType =>
    show (op ++ f.rs ++ 0#21 : BitVec (6 + 5 + 21)).toNat = op.toNat <<< 26 ||| f.rs.toNat <<< 21
    simp only [BitVec.toNat_append, Nat.shiftLeft_or_distrib, ← Nat.shiftLeft_add, BitVec.toNat_ofNat,
      Nat.zero_mod, Nat.or_zero]
  | haltType =>
    show (op ++ 0#26 : BitVec (6 + 26)).toNat = op.toNat <<< 26
    simp only [BitVec.toNat_append, BitVec.toNat_ofNat, Nat.zero_mod, Nat.or_zero]

/-- Settles O17: the assembled value is written out format by format. -/
theorem packAgreesWithItsArithmetic : Obligations.PackAgreesWithItsArithmetic := fun op f =>
  ⟨⟨rfl, pack_toNat .rType op f⟩, ⟨rfl, pack_toNat .iType op f⟩, ⟨rfl, pack_toNat .jrType op f⟩,
    ⟨rfl, pack_toNat .haltType op f⟩, fun fmt => ⟨(pack_toNat fmt op f).symm, assembledValue_lt fmt op f⟩⟩

/-- Settles O18, format by format: the two halves of the I-type immediate stand side by side, and so do the zeros of
the fields a format does not use. -/
theorem muxFormGivesTheSameWord : Obligations.MuxFormGivesTheSameWord := by
  intro fmt op f
  apply BitVec.eq_of_toNat_eq
  cases fmt with
  | rType => rfl
  | iType =>
    have himm := f.imm16.isLt
    show (op ++ f.rs ++ f.rt ++ f.imm16.extractLsb' 11 5 ++ f.imm16.extractLsb' 0 11 :
      BitVec (6 + 5 + 5 + 5 + 11)).toNat = _
    simp only [pack_iType_toNat, toNat_append_add, BitVec.extractLsb'_toNat, Nat.shiftRight_eq_div_pow]
    omega
  | jrType =>
    show (op ++ f.rs ++ 0#5 ++ 0#5 ++ 0#11 : BitVec (6 + 5 + 5 + 5 + 11)).toNat = _
    simp only [pack_jrType_toNat, toNat_append_add, BitVec.toNat_ofNat]
    omega
  | haltType =>
    show (op ++ 0#5 ++ 0#5 ++ 0#5 ++ 0#11 : BitVec (6 + 5 + 5 + 5 + 11)).toNat = _
    simp only [pack_haltType_toNat, toNat_append_add, BitVec.toNat_ofNat]
    omega

/-- The digits of R110 are 0 to 9, then A to F. -/
theorem hexDigit_eq (n : BitVec 4) : hexDigit n =
    if n.toNat < 10 then BitVec.ofNat 8 (0x30 + n.toNat) else BitVec.ofNat 8 (0x41 + (n.toNat - 10)) := by
  revert n
  decide

/-- Byte `i` of the rendering is the digit of the nibble at bits 31-4i to 28-4i (R110). -/
theorem renderHex_getElem? (w : Word) {i : Nat} (hi : i < 8) :
    (renderHex w)[i]? = some (hexDigit (w.extractLsb' (28 - 4 * i) 4)) := by
  show ((List.range 8).map _)[i]? = _
  rw [List.getElem?_map, List.getElem?_range hi]
  rfl

/-- A nibble of a word, as arithmetic on the word's value. -/
theorem toNat_nibble (w : Word) {i : Nat} (hi : i < 8) :
    (w.extractLsb' (28 - 4 * i) 4).toNat = w.toNat / 16 ^ (7 - i) % 16 := by
  have hpow : 2 ^ (28 - 4 * i) = 16 ^ (7 - i) := by
    rw [show 28 - 4 * i = 4 * (7 - i) by omega, Nat.pow_mul]
  rw [BitVec.extractLsb'_toNat, Nat.shiftRight_eq_div_pow, hpow]

/-- Settles O19: each byte is the digit of its nibble, and the digits are those of R110. -/
theorem hexRendersEachNibbleUpperCase : Obligations.HexRendersEachNibbleUpperCase := by
  refine fun w => ⟨rfl, fun i hi => ?_⟩
  rw [renderHex_getElem? w hi, hexDigit_eq, toNat_nibble w hi]

/-! ## Instructions: the count, then the slots -/

/-- With the ROM loaded, an entry's instruction is answered by the count check, the router and the packer. -/
theorem answers_ofMnemonic {s : State} (hrom : s.RomLoaded) {e : RomEntry} (he : e ∈ opcodeTable)
    (ops : List Token) : Answers (Instr.ofMnemonic e.mnemonic ops) s
      (if ops.length = e.format.nops then pack e.format e.opcode <$> route Config.regMarkers e.format ops
        else .error .malformedOperands) := by
  refine ⟨_, exec_next _ s, ?_, s.drive_sameInputs _⟩
  rw [Instr.mnemonic_ofMnemonic, Instr.operands_ofMnemonic, hrom,
    resultAs_of_hit (romLookup_of_mem_opcodeTable he)]
  exact s.drive_shows _

/-- Settles O25: the count check comes before the router. -/
theorem operandCountIsCheckedFirst : Obligations.OperandCountIsCheckedFirst := by
  refine ⟨⟨rfl, rfl, rfl, rfl⟩, fun s e ops hrom he hcount => ?_⟩
  simpa only [if_neg hcount] using answers_ofMnemonic hrom he ops

/-- Settles O26: with the count right the router's outcome is the answer. -/
theorem firstFailingSlotDecidesTheError : Obligations.FirstFailingSlotDecidesTheError := by
  intro s e ops hrom he hcount
  have hans := answers_ofMnemonic hrom he ops
  rw [if_pos hcount] at hans
  refine ⟨fun k err hk hlow => ?_, fun hnone => ?_⟩
  · rwa [route_eq_error_of_first_slotFails hk hlow] at hans
  · obtain ⟨f, hroute⟩ := exists_route_of_no_slotFails hnone
    rw [hroute] at hans
    exact ⟨_, hans⟩

/-! ## Lines -/

/-- Settles O8: the tokenizer gives tokens, and a WS byte separates what stands before it from what stands after. -/
theorem tokensAreMaximalRunsOfNonSpaceBytes : Obligations.TokensAreMaximalRunsOfNonSpaceBytes := by
  refine ⟨fun line t ht => isToken_iff.mp (isToken_of_mem_tokenize ht),
    fun t hne hall => tokenize_token (isToken_iff.mpr ⟨hne, hall⟩), fun ws hws => tokenize_ws hws,
    fun a ws b hne hws => ?_, fun line hnone => ?_⟩
  · obtain ⟨c, cs, rfl⟩ := List.exists_cons_of_ne_nil hne
    obtain ⟨hc, hcs⟩ := List.forall_mem_cons.mp hws
    rw [List.append_assoc, List.cons_append, tokenize_append_cons_ws hc, tokenize_ws_append hcs]
  · rw [encodeLine, ← resultOfLine_opcodeTable, resultOfLine_of_no_token hnone]

/-- Settles O11: a step drives the result of its line, and that is the decoded instruction's or the decoder's error. -/
theorem stepRunsTheDecodedInstruction : Obligations.StepRunsTheDecodedInstruction := by
  refine ⟨fun s i hdec => ?_, fun s e hdec => ⟨_, step_next s, ?_, s.drive_sameInputs _⟩⟩
  · rw [step_next, exec_next, resultOfLine_of_decodeLine hdec]
  · rw [resultOfLine, hdec]
    exact s.drive_shows _

/-- Settles O29: with the ROM loaded the driven result is `encode(line)`. -/
theorem stepAnswersTheEncodingOfTheLine : Obligations.StepAnswersTheEncodingOfTheLine := by
  refine fun s hrom => ⟨_, step_next s, ?_, s.drive_sameInputs _⟩
  rw [hrom, resultOfLine_opcodeTable]
  exact s.drive_shows _

/-- The result of a line is never InternalInvariantViolation (R109, R174). -/
theorem errFlag_resultOfLine_ne (markers : List Byte) (rom : List RomEntry) (line : Line) :
    errFlag (resultOfLine markers rom line) ≠ errorCode .internalInvariantViolation := by
  obtain hr | hr | hr | ⟨e, -, f, hr⟩ := resultOfLine_cases markers rom line <;> rw [hr]
  · decide
  · decide
  · decide
  · show (0#3 : BitVec 3) ≠ 4#3
    decide

/-- Settles O32: the result is that of the first stage that fails: tokenizer, ROM, count check, router. -/
theorem errorPriorityOfALine : Obligations.ErrorPriorityOfALine := by
  intro s hrom
  have hshows {r : Except EncodeError Word} (h : resultOfLine Config.regMarkers opcodeTable s.line = r) :
      (s.drive (resultOfLine Config.regMarkers s.rom s.line)).Shows r := by
    rw [hrom, h]
    exact s.drive_shows r
  refine ⟨_, step_next s, errFlag_resultOfLine_ne _ _ _, fun hnone => ?_, fun m ops htoks =>
    ⟨fun hmiss => ?_, fun e hhit => ⟨fun hcount => ?_, fun hcount k err hk hlow => ?_⟩⟩⟩
  · exact hshows (resultOfLine_of_no_token hnone _ _)
  · exact hshows (resultOfLine_of_miss htoks hmiss _)
  · exact hshows (by rw [resultOfLine_of_hit htoks hhit, if_neg hcount])
  · exact hshows (by
      rw [resultOfLine_of_hit htoks hhit, if_pos hcount, route_eq_error_of_first_slotFails hk hlow]
      rfl)

/-- An accepted line has a first token that hits, the operand count of the entry hit, and the word packed from its
routed fields, whatever the ROM holds (R100). -/
theorem resultOfLine_eq_ok {markers : List Byte} {rom : List RomEntry} {line : Line} {w : Word}
    (h : resultOfLine markers rom line = .ok w) :
    ∃ t ops e f, tokenize line = t :: ops ∧ romLookup rom (foldCase t) = some e ∧ ops.length = e.format.nops ∧
      route markers e.format ops = .ok f ∧ w = pack e.format e.opcode f := by
  cases htoks : tokenize line with
  | nil =>
    rw [resultOfLine_of_no_token htoks] at h
    cases h
  | cons t ops =>
    cases hlook : romLookup rom (foldCase t) with
    | none =>
      rw [resultOfLine_of_miss htoks hlook] at h
      cases h
    | some e =>
      rw [resultOfLine_of_hit htoks hlook] at h
      split at h
      · next hcount =>
        obtain ⟨f, hroute, hw⟩ := map_eq_ok_iff.mp h
        exact ⟨t, ops, e, f, rfl, hlook, hcount, hroute, hw.symm⟩
      · cases h

/-- Settles O34: the word is packed from the routed fields, and each field reads back as it was packed. -/
theorem answeredWordsReadBackTheirFields : Obligations.AnsweredWordsReadBackTheirFields := by
  intro s t hstep hok
  obtain rfl := step_eq_next_iff.mp hstep
  obtain ⟨w, hw⟩ := okFlag_eq_true_iff.mp hok
  obtain ⟨m, ops, ⟨mn, op, fmt⟩, f, htoks, hhit, hcount, hroute, rfl⟩ := resultOfLine_eq_ok hw
  rw [hw, State.drive_word, wordPort_ok]
  refine ⟨m, ops, _, htoks, hhit, hcount, opField_pack fmt op f, unusedBitsZero_pack fmt op f, ?_, ?_, ?_⟩
  · rintro rfl
    rw [rdField_pack_rType, rsField_pack (fmt := .rType) (by decide), rtField_pack (.inl rfl)]
    exact route_rType_eq_ok hroute
  · rintro rfl
    obtain ⟨h0, h1, h2⟩ := route_iType_eq_ok hroute
    obtain ⟨v, hv, himm⟩ := parseImm_eq_ok_iff.mp h2
    rw [rtField_pack (.inr rfl), rsField_pack (fmt := .iType) (by decide), immField_pack_iType]
    exact ⟨h0, h1, v, hv, himm ▸ low16_toNat v⟩
  · rintro rfl
    rw [rsField_pack (fmt := .jrType) (by decide)]
    exact route_jrType_eq_ok hroute

/-- Settles O38: canonical operands route to the fields they spell. -/
theorem anyFieldValuesEncodeTogether : Obligations.AnyFieldValuesEncodeTogether := by
  refine fun s e f hrom he => ⟨_, request_next _ s, ?_⟩
  rw [hrom, resultOfLine_canonical (by decide) he, route_canonicalOperands canonicalMarker_mem]
  exact State.drive_shows _ _

/-! ## Instructions and their words -/

/-- The instructions of a format, in the order of the ROM's rows. -/
def instrsOf (fmt : Format) : List (List Token → Instr) :=
  (opcodeTable.filter fun e => e.format = fmt).map fun e => Instr.ofMnemonic e.mnemonic

/-- An instruction of a format with canonical operands encodes to a word that decodes to it (R115). -/
theorem encodeWith_decodeWordWith_canonical {fmt : Format} {c : List Token → Instr} (hc : c ∈ instrsOf fmt)
    {markers : List Byte} {m : Byte} (hm : m ∈ markers) (f : Fields) :
    ∃ w, encodeWith markers (c (canonicalOperands m fmt f)) = .ok w ∧
      decodeWordWith m w = .ok (c (canonicalOperands m fmt f)) := by
  obtain ⟨e, hmem, rfl⟩ := List.mem_map.mp hc
  obtain ⟨he, hfmt⟩ := List.mem_filter.mp hmem
  obtain rfl := of_decide_eq_true hfmt
  exact ⟨_, encodeWith_canonical hm he f, decodeWordWith_pack m he f⟩

/-- Settles O7: the lists of the statement are the instructions of the ROM's formats. -/
theorem canonicalInstructionsDecodeFromTheirWord : Obligations.CanonicalInstructionsDecodeFromTheirWord := by
  intro markers m rd rs rt imm hm
  let f : Fields := { rs := rs, rt := rt, rd := rd, imm16 := imm }
  refine ⟨fun c hc => ?_, fun c hc => ?_, ?_, ?_⟩
  · exact encodeWith_decodeWordWith_canonical (fmt := .rType) hc hm f
  · exact encodeWith_decodeWordWith_canonical (fmt := .iType) hc hm f
  · exact encodeWith_decodeWordWith_canonical (fmt := .jrType) (c := Instr.jr) (.head _) hm f
  · exact encodeWith_decodeWordWith_canonical (fmt := .haltType) (c := Instr.halt) (.head _) hm f

end Sys2Proof.Machine
end

section
/-! SUPPORT. The answer to an instruction whose operands route, the R-type family (41_r_type.md R130 to R136), and the
agreement of every instruction with its own rule. -/

namespace Sys2Proof.Machine

/-- With the ROM loaded, an entry's instruction with as many operands as its format takes, all of which route, is
answered with the word packed from the routed fields (R100, R108). -/
theorem answers_pack_of_route {s : State} (hrom : s.RomLoaded) {e : RomEntry} (he : e ∈ opcodeTable)
    {ops : List Token} (hcount : ops.length = e.format.nops) {f : Fields}
    (hroute : route Config.regMarkers e.format ops = .ok f) :
    Answers (Instr.ofMnemonic e.mnemonic ops) s (.ok (pack e.format e.opcode f)) := by
  have hans := answers_ofMnemonic hrom he ops
  rwa [if_pos hcount, hroute] at hans

/-- Settles O21: the three registers route to rd, rs and rt, and the six mnemonics differ in their ROM row only. -/
theorem rTypeInstructionsAnswerTheirWord : Obligations.RTypeInstructionsAnswerTheirWord := by
  intro s t0 t1 t2 rd rs rt hrom h0 h1 h2
  have hword (m : Mnemonic) {op : Opcode} (hrow : ⟨m, op, .rType⟩ ∈ opcodeTable) :
      Answers (Instr.ofMnemonic m [t0, t1, t2]) s (.ok (op ++ rs ++ rt ++ rd ++ 0#11)) :=
    answers_pack_of_route hrom hrow rfl (route_rType_of_parse h0 h1 h2)
  exact ⟨hword .add (by decide), hword .sub (by decide), hword .mul (by decide), hword .or (by decide),
    hword .and (by decide), hword .xor (by decide)⟩

/-- Settles O28: the default build's ports are driven with the result on the ROM, which is the instruction's own
rule. -/
theorem everyInstructionFollowsItsOwnRule : Obligations.EveryInstructionFollowsItsOwnRule := by
  intro i s hrom
  have hexec : exec i s = .next (s.drive (encode i)) := by
    rw [exec_next, hrom, resultAs_opcodeTable, encode]
  exact ⟨_, hexec, s.drive_shows _, s.drive_sameInputs _⟩

/-- Settles O1, by evaluating the two decoders on the lines and words written out. -/
theorem writtenOutLinesAndWordsDecode : Obligations.WrittenOutLinesAndWordsDecode := by
  unfold Obligations.WrittenOutLinesAndWordsDecode
  decide

end Sys2Proof.Machine
end

section
/-! SUPPORT. The I-type family (42_i_type.md R140). -/

namespace Sys2Proof.Machine

/-- An immediate token parses to the 16-bit two's-complement pattern of its value (R105, R106). -/
theorem parseImm_of_immediateToken {t : Token} {v : Int} (ht : ImmediateToken t v) :
    parseImm t = .ok (BitVec.ofInt 16 v) :=
  parseImm_eq_ok_iff.mpr ⟨v, ht, (low16_eq_ofInt v).symm⟩

/-- Settles O22: the operands route to rt, rs and the reduced immediate, and the ten mnemonics differ in their ROM row
only. -/
theorem iTypeInstructionsAnswerTheirWord : Obligations.ITypeInstructionsAnswerTheirWord := by
  intro s t0 t1 t2 rt rs v hrom h0 h1 h2
  have hroute : route Config.regMarkers .iType [t0, t1, t2] =
      .ok { rs := rs, rt := rt, rd := 0#5, imm16 := BitVec.ofInt 16 v } :=
    route_iType_of_parse h0 h1 (parseImm_of_immediateToken h2)
  have hword (m : Mnemonic) {op : Opcode} (hrow : ⟨m, op, .iType⟩ ∈ opcodeTable) :
      Answers (Instr.ofMnemonic m [t0, t1, t2]) s (.ok (op ++ rs ++ rt ++ BitVec.ofInt 16 v)) :=
    answers_pack_of_route hrom hrow rfl hroute
  exact ⟨hword .addi (by decide), hword .subi (by decide), hword .muli (by decide), hword .ori (by decide),
    hword .andi (by decide), hword .xori (by decide), hword .ldw (by decide), hword .stw (by decide),
    hword .bz (by decide), hword .beq (by decide)⟩

end Sys2Proof.Machine
end

section
/-! SUPPORT. A line whose mnemonic is spelled in any letter case, and the JR family (43_jr_type.md R160). -/

namespace Sys2Proof.Machine

/-- With the ROM loaded, a line whose first token folds to an entry's key is evaluated by that entry's instruction
(R75, R102). -/
theorem step_eq_exec_of_foldCase {s : State} (hrom : s.RomLoaded) {e : RomEntry} (he : e ∈ opcodeTable) {m : Token}
    {ops : List Token} (htoks : tokenize s.line = m :: ops) (hkey : foldCase m = e.mnemonic.key) :
    step s = exec (Instr.ofMnemonic e.mnemonic ops) s := by
  have hhit : romLookup s.rom (foldCase m) = some e := by rw [hrom, hkey, romLookup_of_mem_opcodeTable he]
  exact stepRunsTheDecodedInstruction.1 s _ (decodeLine_eq_ok_iff.mpr ⟨m, ops, e, htoks, hhit, rfl⟩)

/-- ParseReg's error on JR's only operand is the answer (R111). -/
theorem answers_jr_of_parseReg_error {s : State} (hrom : s.RomLoaded) {t : Token} {err : EncodeError}
    (hparse : parseReg Config.regMarkers t = .error err) : Answers (.jr [t]) s (.error err) := by
  have hfail : SlotFails Config.regMarkers .jrType [t] 0 err := slotFails_iff.mpr hparse
  exact (firstFailingSlotDecidesTheError s ⟨.jr, 16#6, .jrType⟩ [t] hrom (by decide) rfl).1 0 err hfail
    fun j hj => absurd hj (Nat.not_lt_zero j)

/-- Settles O23: the register routes to rs, the two errors of a token are ParseReg's, and the count check and the
lookup read JR's ROM row. -/
theorem jrAnswersItsWordOrItsError : Obligations.JrAnswersItsWordOrItsError := by
  intro s hrom
  have hrow : (⟨.jr, 16#6, .jrType⟩ : RomEntry) ∈ opcodeTable := by decide
  refine ⟨fun t rs hparse => ?_, fun ops hcount => ?_, fun t hshape => ?_, fun t hshape hgt => ?_,
    fun m ops htoks hkey => ?_⟩
  · have hroute := route_jrType_of_parse (ops := [t]) hparse
    exact (answers_pack_of_route hrom hrow rfl hroute :)
  · exact operandCountIsCheckedFirst.2 s _ ops hrom hrow hcount
  · exact answers_jr_of_parseReg_error hrom (parseReg_eq_error_iff.mpr (.inl ⟨hshape, rfl⟩))
  · exact answers_jr_of_parseReg_error hrom (parseReg_eq_error_iff.mpr (.inr ⟨hshape, hgt, rfl⟩))
  · exact step_eq_exec_of_foldCase hrom hrow htoks hkey

end Sys2Proof.Machine
end

section
/-! SUPPORT. A requested line that is no mnemonic, and the Halt-type family (44_halt_type.md R165). -/

namespace Sys2Proof.Machine

/-- With the ROM loaded, a requested line whose first token folds to no key of R21 is rejected with UnknownOpcode
(R102). -/
theorem request_shows_unknownOpcode_of_miss {s : State} (hrom : s.RomLoaded) {l : Line} {m : Token} {ops : List Token}
    (htoks : tokenize l = m :: ops) (hmiss : romLookup opcodeTable (foldCase m) = none) :
    ∃ t, request l s = .next t ∧ t.Shows (.error .unknownOpcode) := by
  refine ⟨_, request_next l s, ?_⟩
  rw [hrom, resultOfLine_of_miss htoks hmiss]
  exact State.drive_shows _ _

/-- Settles O24: HALT's format takes no operand and routes none, so its word is the opcode over zeros; an operand
fails the count check, and the lookup reads HALT's ROM row. -/
theorem haltAnswersItsOneWord : Obligations.HaltAnswersItsOneWord := by
  intro s hrom
  have hrow : (⟨.halt, 17#6, .haltType⟩ : RomEntry) ∈ opcodeTable := by decide
  refine ⟨?_, fun t ops => ?_, fun m ops htoks hkey => ?_, ?_⟩
  · exact (answers_pack_of_route hrom hrow (ops := []) rfl rfl :)
  · exact operandCountIsCheckedFirst.2 s _ (t :: ops) hrom hrow (Nat.succ_ne_zero ops.length)
  · exact step_eq_exec_of_foldCase hrom hrow htoks hkey
  · have htoks : tokenize (ascii ['H', 'A', 'L', 'T', '.']) = [ascii ['H', 'A', 'L', 'T', '.']] :=
      tokenize_token (by decide)
    exact request_shows_unknownOpcode_of_miss hrom htoks (by decide)

end Sys2Proof.Machine
end

section
/-! SUPPORT. Which errors a result can be, and that the err port tells them apart (60_exceptions.md R170, R171,
R174). -/

namespace Sys2Proof.Machine

/-- The err port shows an error's code exactly when the result is that error: the codes of R170 are distinct, and none
is the 0 of an accepted line. -/
theorem errFlag_eq_errorCode_iff {r : Except EncodeError Word} {e : EncodeError} :
    errFlag r = errorCode e ↔ r = .error e := by
  cases r with
  | ok w => cases e <;> simp [errorCode]
  | error e' => cases e' <;> cases e <;> simp [errorCode]

/-! ## The result of an instruction, on any ROM -/

/-- A mnemonic that misses in the ROM has UnknownOpcode as its result (R102). -/
theorem resultAs_of_miss {rom : List RomEntry} {m : Mnemonic} (h : romLookup rom m.key = none) (markers : List Byte)
    (ops : List Token) : resultAs markers rom m ops = .error .unknownOpcode := by
  rw [resultAs, routeAs, opcodeMux, h]
  rfl

/-- On a ROM hit only the count check and the operand parsers raise an error (R103, R107). -/
theorem resultAs_error_of_hit {markers : List Byte} {rom : List RomEntry} {m : Mnemonic} {ops : List Token}
    {e : RomEntry} {err : EncodeError} (hhit : romLookup rom m.key = some e)
    (h : resultAs markers rom m ops = .error err) : err = .malformedOperands ∨ err = .invalidRegister := by
  rw [resultAs_of_hit hhit] at h
  split at h
  · cases hroute : route markers e.format ops with
    | ok f =>
      rw [hroute] at h
      cases h
    | error err' =>
      rw [hroute] at h
      cases h
      exact route_error hroute
  · cases h
    exact .inl rfl

/-- The result of an instruction is never InternalInvariantViolation, whatever the ROM holds (R109, R174). -/
theorem errFlag_resultAs_ne (markers : List Byte) (rom : List RomEntry) (m : Mnemonic) (ops : List Token) :
    errFlag (resultAs markers rom m ops) ≠ errorCode .internalInvariantViolation := by
  rw [ne_eq, errFlag_eq_errorCode_iff]
  intro h
  cases hlook : romLookup rom m.key with
  | none =>
    rw [resultAs_of_miss hlook] at h
    cases h
  | some e => obtain herr | herr := resultAs_error_of_hit hlook h <;> cases herr

/-- Settles O33: a step or an instruction drives the result of its line or of its stages, and neither is the internal
error. -/
theorem nothingStopsTheBlock : Obligations.NothingStopsTheBlock :=
  ⟨fun s => ⟨_, step_next s, errFlag_resultOfLine_ne _ _ _⟩,
    fun i s => ⟨_, exec_next i s, errFlag_resultAs_ne _ _ _ _⟩,
    fun _ _ hfits => ⟨_, stepWith_of_fits hfits, errFlag_resultOfLine_ne _ _ _⟩⟩

/-! ## UnknownOpcode -/

/-- The result of a line is UnknownOpcode exactly when no first token of it folds to a key of the ROM (R101, R102,
D7). -/
theorem resultOfLine_eq_unknownOpcode_iff {markers : List Byte} {rom : List RomEntry} {line : Line} :
    resultOfLine markers rom line = .error .unknownOpcode ↔
      ∀ m ops, tokenize line = m :: ops → ∀ e ∈ rom, e.mnemonic.key ≠ foldCase m := by
  simp only [← romLookup_eq_none_iff]
  constructor
  · intro h m ops htoks
    by_contra hsome
    obtain ⟨e, hhit⟩ := Option.ne_none_iff_exists'.mp hsome
    rw [resultOfLine_of_decodeLine (decodeLine_eq_ok_iff.mpr ⟨m, ops, e, htoks, hhit, rfl⟩),
      Instr.mnemonic_ofMnemonic] at h
    obtain herr | herr := resultAs_error_of_hit (romLookup_key hhit) h <;> cases herr
  · intro hmiss
    cases htoks : tokenize line with
    | nil => exact resultOfLine_of_no_token htoks markers rom
    | cons m ops => exact resultOfLine_of_miss htoks (hmiss m ops htoks) markers

/-- Settles O31: the err port shows the result of the line, which is UnknownOpcode exactly on a miss. -/
theorem unknownOpcodeExactlyWithoutAMnemonic : Obligations.UnknownOpcodeExactlyWithoutAMnemonic := by
  refine fun s hrom => ⟨_, step_next s, ?_⟩
  rw [State.drive_err, errFlag_eq_errorCode_iff, resultOfLine_eq_unknownOpcode_iff, hrom]

end Sys2Proof.Machine
end
